-- ==== Sys2Proof/Word.lean ====
section
/-! DEFINITION. The data units of the rust-vm execution core: the word, the four-bit field of an
instruction, and the byte (which the core itself never handles; it serves the memory list's cells and
the external loader's images only). -/

namespace Sys2Proof

/-- "The 16-bit unsigned unit of storage and computation" (R6, R9, R13): every register, memory cell,
address and instruction is one. -/
abbrev Word := BitVec 16

/-- One of the four fields of an instruction (R61). -/
abbrev Nibble := BitVec 4

/-- Half a word. No instruction of the core reaches one (R40, R48). -/
abbrev Byte := BitVec 8

end Sys2Proof
end

