-- ==== Sys2Proof/Syntax.lean ====
section
/-! DEFINITION. The instructions: one constructor for each row of spec/opcode_table.json, in the table's
order, each holding exactly the fields its operand shape uses (R67, R68).

A register operand is the raw four-bit field, not a register: a used field holding 4 to 15 is a legal term
here, and executing it takes the InvalidOpcode fault (R66, R85). The bits an instruction ignores are not
part of it (R66, R71); assumption 7 says so. -/

namespace Sys2Proof

/-- The rust-vm ISA (R68). -/
inductive Instr where
  /-- Opcode 0x0, shape None: the reserved row (R152). -/
  | reserved
  /-- Opcode 0x1, shape None: NOP (R150). -/
  | nop
  /-- Opcode 0x2, shape None: HALT (R151). -/
  | halt
  /-- Opcode 0x3, shape RegImm: LOAD_IMM Rd, k (R120). -/
  | loadImm (rd imm : Nibble)
  /-- Opcode 0x4, shape RegReg: MOVE Rd, Rs (R121). -/
  | move (rd rs : Nibble)
  /-- Opcode 0x5, shape RegMem: LOAD Rd, Rs, k (R123). -/
  | load (rd rs imm : Nibble)
  /-- Opcode 0x6, shape RegMem: STORE Rd, Rs, k (R124). -/
  | store (rd rs imm : Nibble)
  /-- Opcode 0x7, shape RegReg: ADD Rd, Rs (R101). -/
  | add (rd rs : Nibble)
  /-- Opcode 0x8, shape RegReg: SUB Rd, Rs (R102). -/
  | sub (rd rs : Nibble)
  /-- Opcode 0x9, shape RegReg: AND Rd, Rs (R103). -/
  | and (rd rs : Nibble)
  /-- Opcode 0xA, shape RegReg: OR Rd, Rs (R104). -/
  | or (rd rs : Nibble)
  /-- Opcode 0xB, shape RegReg: XOR Rd, Rs (R105). -/
  | xor (rd rs : Nibble)
  /-- Opcode 0xC, shape RegReg: CMP Rd, Rs (R106). -/
  | cmp (rd rs : Nibble)
  /-- Opcode 0xD, shape Target: JUMP Rs, k (R141). -/
  | jump (rs imm : Nibble)
  /-- Opcode 0xE, shape Target: JUMP_IF_ZERO Rs, k (R142). -/
  | jumpIfZero (rs imm : Nibble)
  /-- Opcode 0xF, shape Target: JUMP_IF_NOT_ZERO Rs, k (R143). -/
  | jumpIfNotZero (rs imm : Nibble)
  deriving DecidableEq, Repr

/-- The operand shapes (R67): which fields an opcode uses. -/
inductive Shape where
  /-- No field is used: NOP, HALT and the reserved opcode. -/
  | none
  /-- rd and rs are used: MOVE and the arithmetic and logic family. -/
  | regReg
  /-- rd and imm are used: LOAD_IMM. -/
  | regImm
  /-- rd, rs and imm are used: LOAD and STORE. -/
  | regMem
  /-- rs and imm are used: the jumps. -/
  | target
  deriving DecidableEq, Repr

/-- The four general registers (R21). -/
inductive Reg where
  | r0 | r1 | r2 | r3
  deriving DecidableEq, Repr

/-- The four fields that partition an instruction word (R61). -/
structure Fields where
  /-- Bits 15 to 12, the operation. -/
  op : Nibble
  /-- Bits 11 to 8: the destination register, or STORE's data register. -/
  rd : Nibble
  /-- Bits 7 to 4: the source register, or the base register. -/
  rs : Nibble
  /-- Bits 3 to 0: the immediate or offset. -/
  imm : Nibble
  deriving DecidableEq, Repr

end Sys2Proof
end

