-- ==== Sys2Proof/WellFormed.lean ====
section
/-! DEFINITION. Which instructions are legal (R70). An illegal one still executes: it takes the
InvalidOpcode fault. -/

namespace Sys2Proof

/-- A used register field names a general register exactly when it holds 0 to 3 (R66). -/
def namesReg (f : Nibble) : Bool := decide (f.toNat ≤ 3)

/-- The instruction is not among the illegal encodings (R70): it is not the reserved opcode, and every register
field it uses holds 0 to 3. -/
def Instr.wellFormed : Instr → Bool
  | .reserved => false
  | .nop => true
  | .halt => true
  | .loadImm rd _ => namesReg rd
  | .move rd rs => namesReg rd && namesReg rs
  | .load rd rs _ => namesReg rd && namesReg rs
  | .store rd rs _ => namesReg rd && namesReg rs
  | .add rd rs => namesReg rd && namesReg rs
  | .sub rd rs => namesReg rd && namesReg rs
  | .and rd rs => namesReg rd && namesReg rs
  | .or rd rs => namesReg rd && namesReg rs
  | .xor rd rs => namesReg rd && namesReg rs
  | .cmp rd rs => namesReg rd && namesReg rs
  | .jump rs _ => namesReg rs
  | .jumpIfZero rs _ => namesReg rs
  | .jumpIfNotZero rs _ => namesReg rs

end Sys2Proof
end

