-- ==== Sys2Proof/Decode.lean ====
section
/-! DEFINITION. The decoder (R60 to R68), the executor's validation of the fields (R85), and after them the encoder
(R73, R74). The decoder is pure and total and refuses no word: "any 16-bit pattern decodes to some structured
Instruction" (R62). -/

namespace Sys2Proof

/-- `decode` of R62: the four fields of a word. -/
def splitWord (w : Word) : Fields :=
  { op := w.extractLsb' 12 4, rd := w.extractLsb' 8 4, rs := w.extractLsb' 4 4,
    imm := w.extractLsb' 0 4 }

/-- The concatenation of four fields, op in the high bits (R8, R64). -/
def joinFields (f : Fields) : Word := f.op ++ f.rd ++ f.rs ++ f.imm

/-- The opcode map (R68): the instruction four fields stand for. The fields the opcode does not use are dropped
(R66, R71). -/
def instrOfFields (f : Fields) : Instr :=
  match f.op with
  | 0x0#4 => .reserved
  | 0x1#4 => .nop
  | 0x2#4 => .halt
  | 0x3#4 => .loadImm f.rd f.imm
  | 0x4#4 => .move f.rd f.rs
  | 0x5#4 => .load f.rd f.rs f.imm
  | 0x6#4 => .store f.rd f.rs f.imm
  | 0x7#4 => .add f.rd f.rs
  | 0x8#4 => .sub f.rd f.rs
  | 0x9#4 => .and f.rd f.rs
  | 0xA#4 => .or f.rd f.rs
  | 0xB#4 => .xor f.rd f.rs
  | 0xC#4 => .cmp f.rd f.rs
  | 0xD#4 => .jump f.rs f.imm
  | 0xE#4 => .jumpIfZero f.rs f.imm
  | _ => .jumpIfNotZero f.rs f.imm   -- 0xF, the one value left

/-- The instruction a fetched word stands for (R62, R68, R84). -/
def decode (w : Word) : Instr := instrOfFields (splitWord w)

/-- The operand shape of each opcode value (R67). -/
def shapeOfOp (op : Nibble) : Shape :=
  match op with
  | 0x0#4 => .none
  | 0x1#4 => .none
  | 0x2#4 => .none
  | 0x3#4 => .regImm
  | 0x4#4 => .regReg
  | 0x5#4 => .regMem
  | 0x6#4 => .regMem
  | 0x7#4 => .regReg
  | 0x8#4 => .regReg
  | 0x9#4 => .regReg
  | 0xA#4 => .regReg
  | 0xB#4 => .regReg
  | 0xC#4 => .regReg
  | _ => .target   -- 0xD, 0xE, 0xF

/-- Whether a shape uses the rd field (R67). -/
def Shape.usesRd : Shape → Bool
  | .none => false
  | .regReg => true
  | .regImm => true
  | .regMem => true
  | .target => false

/-- Whether a shape uses the rs field (R67). -/
def Shape.usesRs : Shape → Bool
  | .none => false
  | .regReg => true
  | .regImm => false
  | .regMem => true
  | .target => true

/-- Whether a shape uses the imm field (R67). -/
def Shape.usesImm : Shape → Bool
  | .none => false
  | .regReg => false
  | .regImm => true
  | .regMem => true
  | .target => true

/-- `validate` of R85, as a test of the fields alone: false where it raises Fault(InvalidOpcode). -/
def validFields (f : Fields) : Bool :=
  !(f.op == 0x0#4)
    && !((shapeOfOp f.op).usesRd && !namesReg f.rd)
    && !((shapeOfOp f.op).usesRs && !namesReg f.rs)

/-- The fields with every bit that the opcode ignores cleared (R68's `x` bits, R71, R74). -/
def canonicalFields (f : Fields) : Fields :=
  { op := f.op,
    rd := if (shapeOfOp f.op).usesRd then f.rd else 0x0#4,
    rs := if (shapeOfOp f.op).usesRs then f.rs else 0x0#4,
    imm := if (shapeOfOp f.op).usesImm then f.imm else 0x0#4 }

/-- The fields of the canonical encoding of an instruction: 0 in every ignored field (R68, R73, R74). The reserved row
has no syntax; its word is the first of its range (R152). -/
def fieldsOfInstr : Instr → Fields
  | .reserved => ⟨0x0#4, 0x0#4, 0x0#4, 0x0#4⟩
  | .nop => ⟨0x1#4, 0x0#4, 0x0#4, 0x0#4⟩
  | .halt => ⟨0x2#4, 0x0#4, 0x0#4, 0x0#4⟩
  | .loadImm rd imm => ⟨0x3#4, rd, 0x0#4, imm⟩
  | .move rd rs => ⟨0x4#4, rd, rs, 0x0#4⟩
  | .load rd rs imm => ⟨0x5#4, rd, rs, imm⟩
  | .store rd rs imm => ⟨0x6#4, rd, rs, imm⟩
  | .add rd rs => ⟨0x7#4, rd, rs, 0x0#4⟩
  | .sub rd rs => ⟨0x8#4, rd, rs, 0x0#4⟩
  | .and rd rs => ⟨0x9#4, rd, rs, 0x0#4⟩
  | .or rd rs => ⟨0xA#4, rd, rs, 0x0#4⟩
  | .xor rd rs => ⟨0xB#4, rd, rs, 0x0#4⟩
  | .cmp rd rs => ⟨0xC#4, rd, rs, 0x0#4⟩
  | .jump rs imm => ⟨0xD#4, 0x0#4, rs, imm⟩
  | .jumpIfZero rs imm => ⟨0xE#4, 0x0#4, rs, imm⟩
  | .jumpIfNotZero rs imm => ⟨0xF#4, 0x0#4, rs, imm⟩

/-- The canonical word of an instruction (R73, R74). -/
def encode (i : Instr) : Word := joinFields (fieldsOfInstr i)

/-- The decoder on an opcode-table word of `nbits` bits. Every instruction is one 16-bit word (R60), so the bits above
`nbits` are 0 and a number that needs more than 16 bits is no instruction. -/
def decodeTableWord (nbits w : Nat) : Option Instr :=
  let v := w % 2 ^ nbits
  if v < 65536 then some (decode (BitVec.ofNat 16 v)) else none

end Sys2Proof
end

