-- ==== Sys2Proof/Config.lean ====
section
/-! DEFINITION. What a core instance is constructed with (R7), the I/O events its input oracle may depend on
(R47), and the input oracle itself, a free value. -/

namespace Sys2Proof

/-- One access to the I/O region (R47). -/
inductive IoEvent where
  /-- A LOAD took the word `v` from the input source at address `a` (R44). -/
  | ioRead (a v : Word)
  /-- A STORE forwarded the word `v` to the output sink at address `a` (R45). -/
  | ioWrite (a v : Word)
  deriving DecidableEq, Repr

/-- How the external loader packs a pair of bytes into a word (R7 IMAGE_BYTE_ORDER, D31). -/
inductive ByteOrder where
  | big
  | little
  deriving DecidableEq, Repr

/-- The parameters of a core instance (R7), fixed for its life. The oracle INPUT is a function, and State is plain data,
so the parameter is the NUMBER of an input source; `Config.input` says what each source supplies (assumption 3). -/
structure Params where
  /-- MEM_SIZE: the memory's capacity in words (R7, R40). -/
  memSize : Nat
  /-- ENTRY: the PC at reset (R7, R191). -/
  entry : Word
  /-- IO_BASE: the first address of the I/O region (R7, R43). -/
  ioBase : Word
  /-- IO_SIZE: the I/O region's size in words, 0 for none (R7, R43). -/
  ioSize : Nat
  /-- STEP_LIMIT: the most cycles that may execute, if any (R7, R81). -/
  stepLimit : Option Nat
  /-- INPUT: which input source the instance was built with (R7, R171). -/
  inputSource : Nat
  /-- IMAGE_BYTE_ORDER: the external loader's packing, outside the core (R7, R48). -/
  imageByteOrder : ByteOrder
  deriving DecidableEq, Repr

/-- The legal range of each parameter (R7). -/
def Params.legal (p : Params) : Bool :=
  decide (1 ≤ p.memSize) && decide (p.memSize ≤ 65536)
    && decide (p.ioBase.toNat + p.ioSize ≤ p.memSize)

/-- INPUT (R7, R44, D15): the word the input source numbered `source` supplies for a read of `address` after the
I/O events `history`. FREE VALUE: no body, so nothing constrains it (93 I9: "any value: a draw from INPUT, under no
law"). -/
opaque Config.input (source : Nat) (history : List IoEvent) (address : Word) : Word

/-- The parameters of the one instance that `State.reset` constructs. ENTRY, IO_SIZE and STEP_LIMIT are the spec's
defaults (R7); the others have no default there and are DESIGN CHOICE, unsafe (assumption 2). -/
def Config.defaultParams : Params :=
  { memSize := 65536, entry := 0x0000#16, ioBase := 0x0000#16, ioSize := 0, stepLimit := none,
    inputSource := 0, imageByteOrder := .big }

end Sys2Proof
end

