-- ==== Sys2Proof/Machine/State.lean ====
section
/-! DEFINITION. The machine's state (R20), its faults (R160) and its value at reset (R33, R190). -/

namespace Sys2Proof.Machine

/-- The three fault kinds (R160). A fault of this core is a STATE it enters (R87, R166), so each is taken as a next state
whose run state is `faulted k`; no step answers `Host.Outcome.fault` (assumption 5). -/
inductive Fault where
  /-- Raised by validation: the reserved opcode, or a used register field holding 4 to 15 (R161). Safe: the spec's own fault. -/
  | invalidOpcode
  /-- Raised by a fetch, LOAD or STORE at an address outside memory, and by a fetch from the I/O region (R162). Safe:
  the spec's own fault. -/
  | memoryOutOfBounds
  /-- Raised by the step-limit check before a fetch (R163). Safe: the spec's own fault. -/
  | stepLimitExceeded
  deriving DecidableEq, Repr

/-- Why an instruction could have no meaning. Nothing answers with one: every instruction has its meaning. -/
inductive Refusal where
  /-- Raised by an arm of `exec` whose instruction has no meaning yet; no arm is such. Safe: the machine stops. -/
  | notModelled (mnemonic : String)
  deriving DecidableEq, Repr

/-- The run state (R12, R29). -/
inductive RunState where
  /-- The only state from which a cycle executes. -/
  | running
  /-- "Halted (terminal, success)". -/
  | halted
  /-- "Faulted(k) (terminal, failure)". -/
  | faulted (k : Fault)
  deriving DecidableEq, Repr

/-- The storage of memory: (cell number, byte) pairs with rising cell numbers and no zero byte, an unlisted cell reading as
0 (R33). The word at address `a` (R40) is cells `2a` (low half) and `2a + 1` (high half); only whole words are read
or written, so the order of the halves is never seen (assumption 4). -/
abbrev Memory := List Host.Cell

/-- The complete state of one core instance (R20). -/
structure State where
  /-- General register R0 (R21). -/
  r0 : Word
  /-- General register R1 (R21). -/
  r1 : Word
  /-- General register R2 (R21). -/
  r2 : Word
  /-- General register R3 (R21). -/
  r3 : Word
  /-- The program counter: the word address of the next instruction to fetch (R23). -/
  pc : Word
  /-- The instruction register: the word last fetched (R25). -/
  ir : Word
  /-- FLAGS.Z (R26). -/
  z : Bool
  /-- FLAGS.N (R26). -/
  n : Bool
  /-- The run state (R29). -/
  runState : RunState
  /-- The step counter, a natural number that never wraps (R30). -/
  steps : Nat
  /-- The storage of the RAM-region words (R40). -/
  mem : Memory
  /-- The I/O event history, oldest event first (R47). -/
  history : List IoEvent
  /-- The construction parameters, which nothing changes (R7, R20). The MODEL's own field: assumption 1. -/
  params : Params
  deriving DecidableEq, Repr

/-- Construction of a core instance with the parameters `p` (R33, R190). -/
def State.init (p : Params) : State :=
  { r0 := 0x0000#16, r1 := 0x0000#16, r2 := 0x0000#16, r3 := 0x0000#16, pc := p.entry,
    ir := 0x0000#16, z := false, n := false, runState := .running, steps := 0, mem := [],
    history := [], params := p }

/-- The machine right after reset (R33, R190), for the parameters of `Config.defaultParams`. -/
def State.reset : State := State.init Config.defaultParams

end Sys2Proof.Machine
end

