-- ==== Sys2Proof/Machine/Ops.lean ====
section
/-! DEFINITION. The shared operations: the general registers (R21), the storage of memory and the three access
primitives (R44 to R46), the end of a cycle (R87) and, as one operation, raising a fault (R166). There is no return from
a fault to stand beside it (R167). -/

namespace Sys2Proof.Machine

/-! ### General registers -/

/-- `x[i]` (R10, R21). -/
def readReg (s : State) : Reg → Word
  | .r0 => s.r0
  | .r1 => s.r1
  | .r2 => s.r2
  | .r3 => s.r3

/-- `x[i] <- v` (R10, R21): none of the four is hardwired. -/
def writeReg (d : Reg) (v : Word) (s : State) : State :=
  match d with
  | .r0 => { s with r0 := v }
  | .r1 => { s with r1 := v }
  | .r2 => { s with r2 := v }
  | .r3 => { s with r3 := v }

/-! ### Updates of one field -/

/-- `pc <- t` (R10, R24). -/
def setPc (t : Word) (s : State) : State := { s with pc := t }

/-- `state <- r` (R80, R87). -/
def setRunState (r : RunState) (s : State) : State := { s with runState := r }

/-- The storage replaced (R45). -/
def setMem (m : Memory) (s : State) : State := { s with mem := m }

/-- `history <- history ++ [e]` (R44, R45, R47). -/
def addEvent (e : IoEvent) (s : State) : State := { s with history := s.history ++ [e] }

/-! ### Storage -/

/-- The byte of cell `k`; an unlisted cell reads 0, the reset contents of RAM (R33). -/
def readCell (m : Memory) (k : Nat) : Byte :=
  match m with
  | [] => 0x00#8
  | c :: rest => if c.1 = k then c.2 else readCell rest k

/-- The memory without cell `k`, which then reads 0. -/
def eraseCell (k : Nat) (m : Memory) : Memory :=
  match m with
  | [] => []
  | c :: rest => if c.1 = k then eraseCell k rest else c :: eraseCell k rest

/-- The memory with cell `k` listed as `v`, in its place in the rising list. -/
def insertCell (k : Nat) (v : Byte) (m : Memory) : Memory :=
  match m with
  | [] => [(k, v)]
  | c :: rest =>
    if k < c.1 then (k, v) :: c :: rest
    else if k = c.1 then (k, v) :: rest
    else c :: insertCell k v rest

/-- The memory with cell `k` at `v`: the list stays rising, and writing 0 removes the entry. -/
def writeCell (k : Nat) (v : Byte) (m : Memory) : Memory :=
  if v = 0x00#8 then eraseCell k m else insertCell k v m

/-- Every listed cell number is at least `lo`, they rise, and no listed byte is 0. -/
def memWfFrom (lo : Nat) (m : Memory) : Bool :=
  match m with
  | [] => true
  | c :: rest => decide (lo ≤ c.1) && !(c.2 == 0x00#8) && memWfFrom (c.1 + 1) rest

/-- The canonical form of a memory: cell numbers strictly rising, no entry equal to what an unlisted cell reads as. -/
def Memory.wf (m : Memory) : Bool := memWfFrom 0 m

/-- `storage[a]`: the word at word address `a` (R40). -/
def readStorage (m : Memory) (a : Nat) : Word := readCell m (2 * a + 1) ++ readCell m (2 * a)

/-- `storage[a] <- v` (R40). -/
def writeStorage (a : Nat) (v : Word) (m : Memory) : Memory :=
  writeCell (2 * a + 1) (v.extractLsb' 8 8) (writeCell (2 * a) (v.extractLsb' 0 8) m)

/-! ### The address map -/

/-- The address is below MEM_SIZE (R42). -/
def inBounds (p : Params) (a : Nat) : Bool := decide (a < p.memSize)

/-- The address is in the I/O region (R43). -/
def inIo (p : Params) (a : Nat) : Bool :=
  decide (p.ioBase.toNat ≤ a) && decide (a < p.ioBase.toNat + p.ioSize)

/-- The address is in the RAM region: in bounds and outside the I/O region (R43). -/
def inRam (p : Params) (a : Nat) : Bool := inBounds p a && !inIo p a

/-! ### The access primitives. `none` is the out-of-bounds answer, with nothing changed (R58). -/

/-- `MemRead(a, 1)` (R44): the word and the state after the read, whose history has grown if `a` is in the I/O region. -/
def memRead (a : Word) (s : State) : Option (Word × State) :=
  if inBounds s.params a.toNat then
    if inIo s.params a.toNat then
      let v := Config.input s.params.inputSource s.history a
      some (v, addEvent (.ioRead a v) s)
    else some (readStorage s.mem a.toNat, s)
  else none

/-- `MemWrite(a, 1, v)` (R45). -/
def memWrite (a v : Word) (s : State) : Option State :=
  if inBounds s.params a.toNat then
    if inIo s.params a.toNat then some (addEvent (.ioWrite a v) s)
    else some (setMem (writeStorage a.toNat v s.mem) s)
  else none

/-- `FetchRead(a)` (R46): a fetch from the I/O region is out of bounds too. -/
def fetchRead (a : Word) (s : State) : Option Word :=
  if inBounds s.params a.toNat then
    if inIo s.params a.toNat then none else some (readStorage s.mem a.toNat)
  else none

/-! ### The end of a cycle -/

/-- The outcome of a cycle (R12). -/
inductive StepOutcome where
  /-- Continue. -/
  | cont
  /-- Halt. -/
  | halt
  /-- Fault(k). -/
  | fault (k : Fault)
  deriving DecidableEq, Repr

/-- `next_state` (R87). -/
def nextState : StepOutcome → RunState
  | .cont => .running
  | .halt => .halted
  | .fault k => .faulted k

/-- The end of a cycle with the outcome `o`: the run state becomes `next_state(o)` and nothing else changes (R80, R87). -/
def endCycle (o : StepOutcome) (s : State) : Host.Outcome State Fault Refusal :=
  .next (setRunState (nextState o) s)

/-- `raise Fault(k)`: TAKING A FAULT. The core enters Faulted(k) at the end of this cycle; nothing is saved, nothing else
changes, there is no handler (R87, R88, R166). -/
def raiseFault (k : Fault) (s : State) : Host.Outcome State Fault Refusal := endCycle (.fault k) s

/-- The numeric code of a fault kind, for a host that reports numbers (R160). -/
def faultCode : Fault → Nat
  | .invalidOpcode => 1
  | .memoryOutOfBounds => 2
  | .stepLimitExceeded => 3

end Sys2Proof.Machine
end

