-- ==== Sys2Proof/Machine/Cycle.lean ====
section
/-! DEFINITION. One cycle up to the point where the executor takes over (R80 to R84): the terminal states, the step
limit, the fetch, the update of IR and PC, and the decoding. -/

namespace Sys2Proof.Machine

/-- What the front of a cycle comes to. -/
inductive CycleFront where
  /-- The cycle is over before anything executes, in state `s`: a terminal state (R91), the step limit (R81) or
  a faulting fetch (R82). -/
  | over (s : State)
  /-- The instruction `i` executes in state `s`, the one its fetch left (R83, R84). -/
  | execute (i : Instr) (s : State)
  deriving DecidableEq, Repr

/-- The step-limit check: STEP_LIMIT is set and `steps >= STEP_LIMIT` (R81). -/
def stepLimitReached (s : State) : Bool :=
  match s.params.stepLimit with
  | none => false
  | some limit => decide (limit ≤ s.steps)

/-- `steps <- steps + 1` (R30, R80). -/
def countStep (s : State) : State := { s with steps := s.steps + 1 }

/-- `ir <- w; pc <- pc + 1` (R83): the advance wraps from 0xFFFF to 0x0000. -/
def latchFetched (w : Word) (s : State) : State := { s with ir := w, pc := s.pc + 1#16 }

/-- The front of the cycle, in the order of R80. A fault in it leaves IR and PC as they were (R81, R82). -/
def cycleFront (s : State) : CycleFront :=
  match s.runState with
  | .halted => .over s
  | .faulted _ => .over s
  | .running =>
    if stepLimitReached s then .over (setRunState (.faulted .stepLimitExceeded) s)
    else
      match fetchRead s.pc (countStep s) with
      | none => .over (setRunState (.faulted .memoryOutOfBounds) (countStep s))
      | some w => .execute (decode w) (latchFetched w (countStep s))

end Sys2Proof.Machine
end

