-- ==== Sys2Proof/Machine/Flags.lean ====
section
/-! DEFINITION. The one flag computation of the core, `setZN` (R10, R27). Carry and overflow do not exist (R26). -/

namespace Sys2Proof.Machine

/-- Z of a result: it is zero (R27). -/
def zeroFlag (r : Word) : Bool := r == 0x0000#16

/-- N of a result: its bit 15 (R27). -/
def negativeFlag (r : Word) : Bool := r.getLsbD 15

/-- `setZN(r)`: both flags are written together (R27). -/
def setZN (r : Word) (s : State) : State := { s with z := zeroFlag r, n := negativeFlag r }

end Sys2Proof.Machine
end

