-- ==== Sys2Proof/Machine/Operands.lean ====
section
/-! DEFINITION. Every operand form (R65 to R67): a register field, a sign-extended immediate, and the one address form,
base plus signed offset, that LOAD, STORE and the jumps share (R122, R140). -/

namespace Sys2Proof.Machine

/-- The general register a used register field names: R0 to R3 for 0 to 3, none for 4 to 15 (R22, R66). -/
def regOfField (f : Nibble) : Option Reg :=
  match f with
  | 0x0#4 => some .r0
  | 0x1#4 => some .r1
  | 0x2#4 => some .r2
  | 0x3#4 => some .r3
  | _ => none

/-- The field value that names a register (R21). -/
def fieldOfReg : Reg → Nibble
  | .r0 => 0x0#4
  | .r1 => 0x1#4
  | .r2 => 0x2#4
  | .r3 => 0x3#4

/-- The validation of one used register field before an instruction's own rule runs (R85): the rule runs with the register
the field names, and a field holding 4 to 15 raises Fault(InvalidOpcode) with no other effect. -/
def withReg (f : Nibble) (s : State) (rule : Reg → Host.Outcome State Fault Refusal) :
    Host.Outcome State Fault Refusal :=
  match regOfField f with
  | some r => rule r
  | none => raiseFault .invalidOpcode s

/-- `zext_16` of a 4-bit field (R9); no instruction uses it (R65). -/
def zext16 (f : Nibble) : Word := f.zeroExtend 16

/-- `sext_16` of a 4-bit field (R9, R65). -/
def sext16 (f : Nibble) : Word := f.signExtend 16

/-- A register's value plus the signed immediate, modulo 2^16: an effective address (R122) or a jump target (R140). -/
def baseOffset (base : Word) (imm : Nibble) : Word := base + sext16 imm

end Sys2Proof.Machine
end

