-- ==== Sys2Proof/Machine/ArithLogic.lean ====
section
/-! DEFINITION. The arithmetic and logic family: ADD, SUB, AND, OR, XOR and CMP (R100 to R108). -/

namespace Sys2Proof.Machine

/-- The family's common behaviour (R100): both operands are read before any write, `f` gives the result, the result is
written to Rd, Z and N follow it, and the cycle continues. rd is validated, then rs (R85). -/
def aluWrite (f : Word → Word → Word) (rd rs : Nibble) (s : State) :
    Host.Outcome State Fault Refusal :=
  withReg rd s fun d => withReg rs s fun r =>
    let result := f (readReg s d) (readReg s r)
    endCycle .cont (setZN result (writeReg d result s))

/-- The same without the register write (R100, R106). -/
def aluCompare (f : Word → Word → Word) (rd rs : Nibble) (s : State) :
    Host.Outcome State Fault Refusal :=
  withReg rd s fun d => withReg rs s fun r =>
    endCycle .cont (setZN (f (readReg s d) (readReg s r)) s)

/-- ADD (R101, R107). -/
def execAdd (rd rs : Nibble) (s : State) : Host.Outcome State Fault Refusal :=
  aluWrite (fun a b => a + b) rd rs s

/-- SUB (R102, R107). -/
def execSub (rd rs : Nibble) (s : State) : Host.Outcome State Fault Refusal :=
  aluWrite (fun a b => a - b) rd rs s

/-- AND (R103). -/
def execAnd (rd rs : Nibble) (s : State) : Host.Outcome State Fault Refusal :=
  aluWrite (fun a b => a &&& b) rd rs s

/-- OR (R104). -/
def execOr (rd rs : Nibble) (s : State) : Host.Outcome State Fault Refusal :=
  aluWrite (fun a b => a ||| b) rd rs s

/-- XOR (R105). -/
def execXor (rd rs : Nibble) (s : State) : Host.Outcome State Fault Refusal :=
  aluWrite (fun a b => a ^^^ b) rd rs s

/-- CMP (R106): the flags of the wrapped difference, and no register written. -/
def execCmp (rd rs : Nibble) (s : State) : Host.Outcome State Fault Refusal :=
  aluCompare (fun a b => a - b) rd rs s

end Sys2Proof.Machine
end

