-- ==== Sys2Proof/Machine/Control.lean ====
section
/-! DEFINITION. The control family, NOP and HALT, and the reserved opcode (R150 to R153). -/

namespace Sys2Proof.Machine

/-- The reserved opcode 0x0 (R152): it always raises Fault(InvalidOpcode). -/
def execReserved (s : State) : Host.Outcome State Fault Refusal := raiseFault .invalidOpcode s

/-- NOP (R150): nothing beyond the fetch. -/
def execNop (s : State) : Host.Outcome State Fault Refusal := endCycle .cont s

/-- HALT (R151): the run state becomes Halted. -/
def execHalt (s : State) : Host.Outcome State Fault Refusal := endCycle .halt s

end Sys2Proof.Machine
end

