-- ==== Sys2Proof/Machine/ControlFlow.lean ====
section
/-! DEFINITION. The control-flow family: JUMP, JUMP_IF_ZERO and JUMP_IF_NOT_ZERO (R140 to R144). None of them writes a
flag or a general register, and none checks its target (R140). -/

namespace Sys2Proof.Machine

/-- A jump taken when `taken` holds: rs is validated whether or not it is taken (R85), a taken jump writes
the target (R140), and an untaken one leaves PC as the fetch advanced it (R89). -/
def jumpWhen (taken : Bool) (rs imm : Nibble) (s : State) : Host.Outcome State Fault Refusal :=
  withReg rs s fun r =>
    endCycle .cont (if taken then setPc (baseOffset (readReg s r) imm) s else s)

/-- JUMP (R141). -/
def execJump (rs imm : Nibble) (s : State) : Host.Outcome State Fault Refusal :=
  jumpWhen true rs imm s

/-- JUMP_IF_ZERO (R142). -/
def execJumpIfZero (rs imm : Nibble) (s : State) : Host.Outcome State Fault Refusal :=
  jumpWhen s.z rs imm s

/-- JUMP_IF_NOT_ZERO (R143). -/
def execJumpIfNotZero (rs imm : Nibble) (s : State) : Host.Outcome State Fault Refusal :=
  jumpWhen (!s.z) rs imm s

end Sys2Proof.Machine
end

