-- ==== Sys2Proof/Machine/DataMovement.lean ====
section
/-! DEFINITION. The data-movement family: LOAD_IMM, MOVE, LOAD and STORE (R120 to R125). None of them writes a flag
(R27). -/

namespace Sys2Proof.Machine

/-- LOAD_IMM (R120). -/
def execLoadImm (rd imm : Nibble) (s : State) : Host.Outcome State Fault Refusal :=
  withReg rd s fun d => endCycle .cont (writeReg d (sext16 imm) s)

/-- MOVE (R121). -/
def execMove (rd rs : Nibble) (s : State) : Host.Outcome State Fault Refusal :=
  withReg rd s fun d => withReg rs s fun r => endCycle .cont (writeReg d (readReg s r) s)

/-- LOAD (R122, R123): the base is read before Rd is written; an out-of-bounds address faults and writes nothing. -/
def execLoad (rd rs imm : Nibble) (s : State) : Host.Outcome State Fault Refusal :=
  withReg rd s fun d => withReg rs s fun r =>
    match memRead (baseOffset (readReg s r) imm) s with
    | some (v, s') => endCycle .cont (writeReg d v s')
    | none => raiseFault .memoryOutOfBounds s

/-- STORE (R122, R124): the register in the rd field is the value written. -/
def execStore (rd rs imm : Nibble) (s : State) : Host.Outcome State Fault Refusal :=
  withReg rd s fun d => withReg rs s fun r =>
    match memWrite (baseOffset (readReg s r) imm) (readReg s d) s with
    | some s' => endCycle .cont s'
    | none => raiseFault .memoryOutOfBounds s

end Sys2Proof.Machine
end

