-- ==== Sys2Proof/Machine/Dispatch.lean ====
section
/-! DEFINITION. The executor's dispatch to exactly one instruction rule (R86). -/

namespace Sys2Proof.Machine

/-- Execute an instruction in the state its fetch left (R80, R83, R86). -/
def exec (i : Instr) (s : State) : Host.Outcome State Fault Refusal :=
  match i with
  | .reserved => Sys2Proof.Machine.execReserved s
  | .nop => Sys2Proof.Machine.execNop s
  | .halt => Sys2Proof.Machine.execHalt s
  | .loadImm rd imm => Sys2Proof.Machine.execLoadImm rd imm s
  | .move rd rs => Sys2Proof.Machine.execMove rd rs s
  | .load rd rs imm => Sys2Proof.Machine.execLoad rd rs imm s
  | .store rd rs imm => Sys2Proof.Machine.execStore rd rs imm s
  | .add rd rs => Sys2Proof.Machine.execAdd rd rs s
  | .sub rd rs => Sys2Proof.Machine.execSub rd rs s
  | .and rd rs => Sys2Proof.Machine.execAnd rd rs s
  | .or rd rs => Sys2Proof.Machine.execOr rd rs s
  | .xor rd rs => Sys2Proof.Machine.execXor rd rs s
  | .cmp rd rs => Sys2Proof.Machine.execCmp rd rs s
  | .jump rs imm => Sys2Proof.Machine.execJump rs imm s
  | .jumpIfZero rs imm => Sys2Proof.Machine.execJumpIfZero rs imm s
  | .jumpIfNotZero rs imm => Sys2Proof.Machine.execJumpIfNotZero rs imm s

end Sys2Proof.Machine
end

