-- ==== Sys2Proof/Machine/HostOps.lean ====
section
/-! DEFINITION. What the host can do to a core between cycles (R192): construct it, load words, inspect it, and the
external loader's packing of a byte image (R48). `step()` and `run()` are in Machine/Step.lean and Machine/Run.lean. -/

namespace Sys2Proof.Machine

/-- `construct(params)` (R190): reset, for parameters in their legal ranges (R7). The spec gives illegal parameters no
meaning, and the host gets no core (assumption 10). -/
def hostConstruct (p : Params) : Option State := if p.legal then some (State.init p) else none

/-- Write words to consecutive addresses from `a` on (R193). -/
def writeWords (a : Nat) (ws : List Word) (m : Memory) : Memory :=
  match ws with
  | [] => m
  | w :: rest => writeWords (a + 1) rest (writeStorage a w m)

/-- `n` addresses from `a` on are outside the I/O region (R193). -/
def clearOfIo (p : Params) (a : Nat) (n : Nat) : Bool :=
  match n with
  | 0 => true
  | k + 1 => !inIo p a && clearOfIo p (a + 1) k

/-- `load(address, words)` (R193, D24): `none` is LoadError, found before any write; the sum is not wrapped. -/
def hostLoad (address : Word) (words : List Word) (s : State) : Option State :=
  if address.toNat + words.length ≤ s.params.memSize then
    if clearOfIo s.params address.toNat words.length then
      some (setMem (writeWords address.toNat words s.mem) s)
    else none
  else none

/-- The registers `read_reg` can name (R194). -/
inductive RegName where
  | gpr (r : Reg)
  | pc
  | ir
  deriving DecidableEq, Repr

/-- `read_reg(name)` (R194). -/
def hostReadReg (name : RegName) (s : State) : Word :=
  match name with
  | .gpr r => readReg s r
  | .pc => s.pc
  | .ir => s.ir

/-- The answer of `read_mem` (R194). -/
inductive MemAnswer where
  /-- A RAM word. -/
  | word (w : Word)
  /-- The address is not below MEM_SIZE; nothing faults. -/
  | outOfBounds
  /-- "I/O, no storage": the input source is not called. -/
  | ioNoStorage
  deriving DecidableEq, Repr

/-- `read_mem(a)` (R194, D25). -/
def hostReadMem (a : Word) (s : State) : MemAnswer :=
  if inBounds s.params a.toNat then
    if inIo s.params a.toNat then .ioNoStorage else .word (readStorage s.mem a.toNat)
  else .outOfBounds

/-- `read_flags()`: Z and N (R194). -/
def hostReadFlags (s : State) : Bool × Bool := (s.z, s.n)

/-- `read_state()` (R194). -/
def hostReadState (s : State) : RunState := s.runState

/-- `read_steps()` (R194). -/
def hostReadSteps (s : State) : Nat := s.steps

/-- `read_io_history()` (R194). -/
def hostReadIoHistory (s : State) : List IoEvent := s.history

/-- The outcome of the cycle that left the core in this state (R12, R87), and what `step()` returns in a terminal state
(R91). -/
def outcomeOf (s : State) : StepOutcome :=
  match s.runState with
  | .running => .cont
  | .halted => .halt
  | .faulted k => .fault k

/-- A pair of image bytes as a word, in the loader's byte order (R7, R48, D31). -/
def packPair (order : ByteOrder) (first second : Byte) : Word :=
  match order with
  | .big => first ++ second
  | .little => second ++ first

/-- "Raw bytes, pair-packed" (R48): the words of a byte image. A last byte without a partner makes no word, and such an
image has no packing (assumption 12). -/
def packImage (order : ByteOrder) (bytes : List Byte) : Option (List Word) :=
  match bytes with
  | [] => some []
  | [_] => none
  | a :: b :: rest => (packImage order rest).map (packPair order a b :: ·)

end Sys2Proof.Machine
end

