-- ==== Sys2Proof/Machine/Step.lean ====
section
/-! DEFINITION. `step()` (R80, R90), and the placing of one instruction where it fetches. -/

namespace Sys2Proof.Machine

/-- One cycle (R80). Every step answers a next state: faults and terminal states are states (R87, R91). -/
def step (s : State) : Host.Outcome State Fault Refusal :=
  match cycleFront s with
  | .over s' => .next s'
  | .execute i s' => exec i s'

/-- `s` with the instruction word loaded at PC by the host's load (R193, R195); a PC where nothing can be loaded leaves
`s` as it is. Every instruction is one word (R60), and the bits above `nbits` are 0. -/
def State.withFetchWord (s : State) (nbits w : Nat) : State :=
  (hostLoad s.pc [BitVec.ofNat 16 (w % 2 ^ nbits)] s).getD s

end Sys2Proof.Machine
end

