-- ==== Sys2Proof/Machine/Assembler.lean ====
section
/-! DEFINITION. The assembler's statements and their encodings (R73, R74). It stands outside the core: nothing the machine
does depends on it (D30). Their text is in Machine/AsmText.lean. -/

namespace Sys2Proof.Machine

/-- A statement of the assembly syntax (R73). `k` absent means it is omitted. -/
inductive Asm where
  | nop
  | halt
  | loadImm (d : Reg) (k : Int)
  | move (d s : Reg)
  | load (d s : Reg) (k : Option Int)
  | store (d s : Reg) (k : Option Int)
  | add (d s : Reg)
  | sub (d s : Reg)
  | and (d s : Reg)
  | or (d s : Reg)
  | xor (d s : Reg)
  | cmp (d s : Reg)
  | jump (s : Reg) (k : Option Int)
  | jumpIfZero (s : Reg) (k : Option Int)
  | jumpIfNotZero (s : Reg) (k : Option Int)
  /-- `.word v`: a data word or a raw encoding. -/
  | word (v : Word)
  deriving DecidableEq, Repr

/-- `k[3:0]` for k in -8..7; the assembler refuses any other value (R73). -/
def asmImm (k : Int) : Option Nibble :=
  if -8 ≤ k ∧ k ≤ 7 then some (BitVec.ofInt 4 k) else none

/-- An omitted k means 0 (R73). -/
def asmOffset (k : Option Int) : Option Nibble := asmImm (k.getD 0)

/-- The word a statement assembles to, 0 in every ignored field (R73, R74); `none` where the assembler refuses it. -/
def assemble (a : Asm) : Option Word :=
  match a with
  | .nop => some (encode .nop)
  | .halt => some (encode .halt)
  | .loadImm d k => (asmImm k).map fun i => encode (.loadImm (fieldOfReg d) i)
  | .move d s => some (encode (.move (fieldOfReg d) (fieldOfReg s)))
  | .load d s k => (asmOffset k).map fun i => encode (.load (fieldOfReg d) (fieldOfReg s) i)
  | .store d s k => (asmOffset k).map fun i => encode (.store (fieldOfReg d) (fieldOfReg s) i)
  | .add d s => some (encode (.add (fieldOfReg d) (fieldOfReg s)))
  | .sub d s => some (encode (.sub (fieldOfReg d) (fieldOfReg s)))
  | .and d s => some (encode (.and (fieldOfReg d) (fieldOfReg s)))
  | .or d s => some (encode (.or (fieldOfReg d) (fieldOfReg s)))
  | .xor d s => some (encode (.xor (fieldOfReg d) (fieldOfReg s)))
  | .cmp d s => some (encode (.cmp (fieldOfReg d) (fieldOfReg s)))
  | .jump s k => (asmOffset k).map fun i => encode (.jump (fieldOfReg s) i)
  | .jumpIfZero s k => (asmOffset k).map fun i => encode (.jumpIfZero (fieldOfReg s) i)
  | .jumpIfNotZero s k => (asmOffset k).map fun i => encode (.jumpIfNotZero (fieldOfReg s) i)
  | .word v => some v

end Sys2Proof.Machine
end

