-- ==== Sys2Proof/Machine/AsmText.lean ====
section
/-! DEFINITION. The text of an assembler statement (R73): how one is spelled, and how a line is read. A text the syntax of
R73 does not describe is refused, and how statements are separated is not part of it (assumption 14). -/

namespace Sys2Proof.Machine

/-! ### Spelling -/

/-- A register's spelling (R73). -/
def regChars : Reg → List Char
  | .r0 => ['R', '0']
  | .r1 => ['R', '1']
  | .r2 => ['R', '2']
  | .r3 => ['R', '3']

/-- A decimal number's spelling (R73). -/
def intChars (k : Int) : List Char :=
  if k < 0 then '-' :: Nat.toDigits 10 k.natAbs else Nat.toDigits 10 k.natAbs

/-- A hexadecimal digit. -/
def hexChar (v : Nibble) : Char :=
  if v.toNat < 10 then Char.ofNat (48 + v.toNat) else Char.ofNat (55 + v.toNat)

/-- A word's four hexadecimal digits. -/
def wordChars (w : Word) : List Char :=
  [hexChar (splitWord w).op, hexChar (splitWord w).rd, hexChar (splitWord w).rs,
    hexChar (splitWord w).imm]

/-- `Rd, Rs`. -/
def regRegChars (d s : Reg) : List Char := regChars d ++ [',', ' '] ++ regChars s

/-- `, k`, and nothing where k is omitted (R73). -/
def offsetChars : Option Int → List Char
  | none => []
  | some k => [',', ' '] ++ intChars k

/-- The mnemonic of each statement (R68, R73). -/
def asmMnemonic : Asm → List Char
  | .nop => ['N', 'O', 'P']
  | .halt => ['H', 'A', 'L', 'T']
  | .loadImm _ _ => ['L', 'O', 'A', 'D', '_', 'I', 'M', 'M']
  | .move _ _ => ['M', 'O', 'V', 'E']
  | .load _ _ _ => ['L', 'O', 'A', 'D']
  | .store _ _ _ => ['S', 'T', 'O', 'R', 'E']
  | .add _ _ => ['A', 'D', 'D']
  | .sub _ _ => ['S', 'U', 'B']
  | .and _ _ => ['A', 'N', 'D']
  | .or _ _ => ['O', 'R']
  | .xor _ _ => ['X', 'O', 'R']
  | .cmp _ _ => ['C', 'M', 'P']
  | .jump _ _ => ['J', 'U', 'M', 'P']
  | .jumpIfZero _ _ => ['J', 'U', 'M', 'P', '_', 'I', 'F', '_', 'Z', 'E', 'R', 'O']
  | .jumpIfNotZero _ _ =>
    ['J', 'U', 'M', 'P', '_', 'I', 'F', '_', 'N', 'O', 'T', '_', 'Z', 'E', 'R', 'O']
  | .word _ => ['.', 'w', 'o', 'r', 'd']

/-- The operands of a statement as text, immediates in decimal and a raw word in hexadecimal (R73). -/
def asmOperands : Asm → List Char
  | .nop => []
  | .halt => []
  | .loadImm d k => ' ' :: regChars d ++ [',', ' '] ++ intChars k
  | .move d s => ' ' :: regRegChars d s
  | .load d s k => ' ' :: regRegChars d s ++ offsetChars k
  | .store d s k => ' ' :: regRegChars d s ++ offsetChars k
  | .add d s => ' ' :: regRegChars d s
  | .sub d s => ' ' :: regRegChars d s
  | .and d s => ' ' :: regRegChars d s
  | .or d s => ' ' :: regRegChars d s
  | .xor d s => ' ' :: regRegChars d s
  | .cmp d s => ' ' :: regRegChars d s
  | .jump s k => ' ' :: regChars s ++ offsetChars k
  | .jumpIfZero s k => ' ' :: regChars s ++ offsetChars k
  | .jumpIfNotZero s k => ' ' :: regChars s ++ offsetChars k
  | .word v => [' ', '0', 'x'] ++ wordChars v

/-- A statement's text: the mnemonic followed by comma-separated operands (R73). -/
def asmChars (a : Asm) : List Char := asmMnemonic a ++ asmOperands a

/-! ### Reading -/

/-- What separates a mnemonic from its operands, and may follow a comma. -/
def isBlank (c : Char) : Bool := c == ' ' || c == '\t'

/-- The text without its leading blanks. -/
def skipBlanks : List Char → List Char
  | [] => []
  | c :: cs => if isBlank c then skipBlanks cs else c :: cs

/-- The text up to its first blank, and the rest without its leading blanks. DESIGN CHOICE (assumption 14): R73 speaks of
whitespace after a comma only, so a blank after NOP or HALT, which leaves an empty rest, is accepted, and a blank after an
operand or before a mnemonic is refused. -/
def splitMnemonic : List Char → List Char × List Char
  | [] => ([], [])
  | c :: cs =>
    if isBlank c then ([], skipBlanks cs)
    else (c :: (splitMnemonic cs).1, (splitMnemonic cs).2)

/-- The parts of a text between its commas. -/
def splitCommas : List Char → List (List Char)
  | [] => [[]]
  | c :: cs =>
    if c == ',' then [] :: splitCommas cs
    else
      match splitCommas cs with
      | [] => [[c]]
      | part :: parts => (c :: part) :: parts

/-- The operand texts: "whitespace after a comma is optional" (R73). -/
def splitOperands (text : List Char) : List (List Char) :=
  match text with
  | [] => []
  | c :: cs => (splitCommas (c :: cs)).map skipBlanks

/-- A register operand (R73). -/
def readRegName (text : List Char) : Option Reg :=
  match text with
  | ['R', '0'] => some .r0
  | ['R', '1'] => some .r1
  | ['R', '2'] => some .r2
  | ['R', '3'] => some .r3
  | _ => none

/-- The value of a digit in a base of at most 16. -/
def digitValue (base : Nat) (c : Char) : Option Nat :=
  let v :=
    if 48 ≤ c.toNat ∧ c.toNat ≤ 57 then c.toNat - 48
    else if 97 ≤ c.toNat ∧ c.toNat ≤ 102 then c.toNat - 87
    else if 65 ≤ c.toNat ∧ c.toNat ≤ 70 then c.toNat - 55
    else base
  if v < base then some v else none

/-- A run of digits after those already read, whose value is `acc`. -/
def readDigits (base acc : Nat) : List Char → Option Nat
  | [] => some acc
  | c :: cs =>
    match digitValue base c with
    | none => none
    | some v => readDigits base (acc * base + v) cs

/-- A number without a sign: decimal, or hexadecimal after `0x` (R73). -/
def readNumber (text : List Char) : Option Nat :=
  match text with
  | [] => none
  | ['0', 'x'] => none
  | '0' :: 'x' :: digits => readDigits 16 0 digits
  | digits => readDigits 10 0 digits

/-- An immediate: a number, or one after a minus sign (R73). -/
def readImm (text : List Char) : Option Int :=
  match text with
  | '-' :: rest => (readNumber rest).map fun n => -(n : Int)
  | other => (readNumber other).map fun n => (n : Int)

/-- `Rd, Rs`. -/
def readRegReg (make : Reg → Reg → Asm) (operands : List (List Char)) : Option Asm :=
  match operands with
  | [d, s] =>
    match readRegName d, readRegName s with
    | some d, some s => some (make d s)
    | _, _ => none
  | _ => none

/-- `Rd, Rs, k`, or `Rd, Rs` with k omitted. -/
def readRegMem (make : Reg → Reg → Option Int → Asm) (operands : List (List Char)) :
    Option Asm :=
  match operands with
  | [d, s, k] =>
    match readRegName d, readRegName s, readImm k with
    | some d, some s, some k => some (make d s (some k))
    | _, _, _ => none
  | other => readRegReg (fun d s => make d s none) other

/-- `Rs, k`, or `Rs` with k omitted. -/
def readTarget (make : Reg → Option Int → Asm) (operands : List (List Char)) : Option Asm :=
  match operands with
  | [s, k] =>
    match readRegName s, readImm k with
    | some s, some k => some (make s (some k))
    | _, _ => none
  | [s] => (readRegName s).map fun s => make s none
  | _ => none

/-- `Rd, k`. -/
def readRegImm (make : Reg → Int → Asm) (operands : List (List Char)) : Option Asm :=
  match operands with
  | [d, k] =>
    match readRegName d, readImm k with
    | some d, some k => some (make d k)
    | _, _ => none
  | _ => none

/-- `.word v`, v a 16-bit word. -/
def readWord (operands : List (List Char)) : Option Asm :=
  match operands with
  | [v] =>
    match readNumber v with
    | some n => if n < 65536 then some (.word (BitVec.ofNat 16 n)) else none
    | none => none
  | _ => none

/-- No operand. -/
def readNone (a : Asm) (operands : List (List Char)) : Option Asm :=
  match operands with
  | [] => some a
  | _ => none

/-- The statement a text is (R73); `none` where it is none, among them the mnemonics R69 leaves out (93 I2). -/
def readStatement (text : List Char) : Option Asm :=
  let operands := splitOperands (splitMnemonic text).2
  match (splitMnemonic text).1 with
  | ['N', 'O', 'P'] => readNone .nop operands
  | ['H', 'A', 'L', 'T'] => readNone .halt operands
  | ['L', 'O', 'A', 'D', '_', 'I', 'M', 'M'] => readRegImm .loadImm operands
  | ['M', 'O', 'V', 'E'] => readRegReg .move operands
  | ['L', 'O', 'A', 'D'] => readRegMem .load operands
  | ['S', 'T', 'O', 'R', 'E'] => readRegMem .store operands
  | ['A', 'D', 'D'] => readRegReg .add operands
  | ['S', 'U', 'B'] => readRegReg .sub operands
  | ['A', 'N', 'D'] => readRegReg .and operands
  | ['O', 'R'] => readRegReg .or operands
  | ['X', 'O', 'R'] => readRegReg .xor operands
  | ['C', 'M', 'P'] => readRegReg .cmp operands
  | ['J', 'U', 'M', 'P'] => readTarget .jump operands
  | ['J', 'U', 'M', 'P', '_', 'I', 'F', '_', 'Z', 'E', 'R', 'O'] => readTarget .jumpIfZero operands
  | ['J', 'U', 'M', 'P', '_', 'I', 'F', '_', 'N', 'O', 'T', '_', 'Z', 'E', 'R', 'O'] =>
    readTarget .jumpIfNotZero operands
  | ['.', 'w', 'o', 'r', 'd'] => readWord operands
  | _ => none

/-- The word a text assembles to; `none` where the assembler refuses it (R73, R74). -/
def assembleChars (text : List Char) : Option Word := (readStatement text).bind assemble

end Sys2Proof.Machine
end

