-- ==== Sys2Proof/Machine/Port.lean ====
section
/-! DEFINITION. The logical memory port of R58: its requests, its answers, and what each does. It states the access
primitives of Machine/Ops.lean as transactions. -/

namespace Sys2Proof.Machine

/-- A request on the memory port (R58). -/
inductive PortRequest where
  | fetch (addr : Word)
  | read (addr : Word)
  | write (addr wdata : Word)
  deriving DecidableEq, Repr

/-- An answer of the memory port (R58). -/
inductive PortAnswer where
  | rdata (w : Word)
  | ok
  | oob
  deriving DecidableEq, Repr

/-- One transaction: the answer, and the core with its memory and history after it (R44 to R46, R58). -/
def portTransaction (q : PortRequest) (s : State) : PortAnswer × State :=
  match q with
  | .fetch a =>
    match fetchRead a s with
    | some w => (.rdata w, s)
    | none => (.oob, s)
  | .read a =>
    match memRead a s with
    | some (v, s') => (.rdata v, s')
    | none => (.oob, s)
  | .write a v =>
    match memWrite a v s with
    | some s' => (.ok, s')
    | none => (.oob, s)

end Sys2Proof.Machine
end

