-- ==== Sys2Proof/Machine/Run.lean ====
section
/-! DEFINITION. `step()` and `run()` as the host calls them (R90, R92), with the outcome they return. -/

namespace Sys2Proof.Machine

/-- `step()`: the outcome and the core after it (R90). `none` would be a step without a next state; there is none. -/
def hostStep (s : State) : Option (StepOutcome × State) :=
  match step s with
  | .next t => some (outcomeOf t, t)
  | .fault _ => none
  | .refused _ => none

/-- `run()` under fuel (R92, 93 I13): the first outcome other than Continue within `fuel` cycles, with the core that is
left; `none` if the run has not ended by then. -/
def hostRun (fuel : Nat) (s : State) : Option (StepOutcome × State) :=
  match fuel with
  | 0 => none
  | k + 1 =>
    match hostStep s with
    | none => none
    | some (.cont, t) => hostRun k t
    | some (o, t) => some (o, t)

end Sys2Proof.Machine
end

