-- ==== Sys2Proof/Safety.lean ====
section
/-! DEFINITION. The terms claims use: what an instruction leaves alone (frames), which words are illegal, what a state
that the core can be in looks like (invariants), and how a run ends (R196). -/

namespace Sys2Proof.Machine

/-! ### Frames -/

/-- Every cell of memory reads as before; cell `k` is a half of the word at address `k / 2`. -/
def SameMemory (s t : State) : Prop := ∀ k : Nat, readCell t.mem k = readCell s.mem k

/-- Every cell outside the word at address `a` reads as before. -/
def SameMemoryBut (a : Word) (s t : State) : Prop :=
  ∀ k : Nat, k / 2 ≠ a.toNat → readCell t.mem k = readCell s.mem k

/-- Every general register is unchanged. -/
def SameRegs (s t : State) : Prop := ∀ q : Reg, readReg t q = readReg s q

/-- Every general register but `d` is unchanged. -/
def SameRegsBut (d : Reg) (s t : State) : Prop := ∀ q : Reg, q ≠ d → readReg t q = readReg s q

/-- Both flags are unchanged. -/
def SameFlags (s t : State) : Prop := t.z = s.z ∧ t.n = s.n

/-- What no instruction writes is unchanged: IR, the step counter and the construction parameters. -/
def SameOutside (s t : State) : Prop := t.ir = s.ir ∧ t.steps = s.steps ∧ t.params = s.params

/-- The flags hold what the result `v` gives (R27): Z says it is 0, N says its bit 15 is set, the word being 32768 or
more. -/
def FlagsOf (v : Word) (t : State) : Prop :=
  (t.z = true ↔ v = 0x0000#16) ∧ (t.n = true ↔ 32768 ≤ v.toNat)

/-- What a register-only instruction that writes `d` leaves alone. -/
def FrameReg (d : Reg) (s t : State) : Prop :=
  SameRegsBut d s t ∧ t.pc = s.pc ∧ t.runState = .running ∧ t.history = s.history
    ∧ SameMemory s t ∧ SameOutside s t

/-! ### Instruction words -/

/-- R70, on the number a word is: opcode 0, or an opcode that uses rd (3 to 12) with rd above 3, or one that
uses rs (4 to 15) with rs above 3. -/
def IllegalWord (w : Word) : Prop :=
  w.toNat / 4096 = 0
    ∨ (3 ≤ w.toNat / 4096 ∧ w.toNat / 4096 ≤ 12 ∧ 4 ≤ w.toNat / 256 % 16)
    ∨ (4 ≤ w.toNat / 4096 ∧ 4 ≤ w.toNat / 16 % 16)

/-- The bits each opcode's instruction uses, from the patterns of R68. -/
def usedBits (op : Nat) : Word :=
  ([0xF000#16, 0xF000#16, 0xF000#16, 0xFF0F#16, 0xFFF0#16, 0xFFFF#16, 0xFFFF#16, 0xFFF0#16,
    0xFFF0#16, 0xFFF0#16, 0xFFF0#16, 0xFFF0#16, 0xFFF0#16, 0xF0FF#16, 0xF0FF#16, 0xF0FF#16] :
    List Word).getD op 0x0000#16

/-- The result a flag writer sets the flags from (R27, R100); none for an illegal one and for every other instruction. -/
def flagResult (i : Instr) (s : State) : Option Word :=
  match i with
  | .add rd rs => aluOperands (fun a b => a + b) rd rs s
  | .sub rd rs => aluOperands (fun a b => a - b) rd rs s
  | .and rd rs => aluOperands (fun a b => a &&& b) rd rs s
  | .or rd rs => aluOperands (fun a b => a ||| b) rd rs s
  | .xor rd rs => aluOperands (fun a b => a ^^^ b) rd rs s
  | .cmp rd rs => aluOperands (fun a b => a - b) rd rs s
  | .reserved => none
  | .nop => none
  | .halt => none
  | .loadImm _ _ => none
  | .move _ _ => none
  | .load _ _ _ => none
  | .store _ _ _ => none
  | .jump _ _ => none
  | .jumpIfZero _ _ => none
  | .jumpIfNotZero _ _ => none
where
  /-- `f` of the two registers the fields name. -/
  aluOperands (f : Word → Word → Word) (rd rs : Nibble) (s : State) : Option Word :=
    match regOfField rd, regOfField rs with
    | some d, some r => some (f (readReg s d) (readReg s r))
    | some _, none => none
    | none, _ => none

/-- The address a STORE writes in state `s`; none for an illegal STORE and for every other instruction (R124). -/
def storeAddress (i : Instr) (s : State) : Option Word :=
  match i with
  | .store rd rs imm =>
    match regOfField rd, regOfField rs with
    | some _, some r => some (baseOffset (readReg s r) imm)
    | some _, none => none
    | none, _ => none
  | .reserved => none
  | .nop => none
  | .halt => none
  | .loadImm _ _ => none
  | .move _ _ => none
  | .load _ _ _ => none
  | .add _ _ => none
  | .sub _ _ => none
  | .and _ _ => none
  | .or _ _ => none
  | .xor _ _ => none
  | .cmp _ _ => none
  | .jump _ _ => none
  | .jumpIfZero _ _ => none
  | .jumpIfNotZero _ _ => none

/-- The instruction is one of the six flag writers (R27). -/
def writesFlags (i : Instr) : Bool :=
  match i with
  | .add _ _ => true
  | .sub _ _ => true
  | .and _ _ => true
  | .or _ _ => true
  | .xor _ _ => true
  | .cmp _ _ => true
  | .reserved => false
  | .nop => false
  | .halt => false
  | .loadImm _ _ => false
  | .move _ _ => false
  | .load _ _ _ => false
  | .store _ _ _ => false
  | .jump _ _ => false
  | .jumpIfZero _ _ => false
  | .jumpIfNotZero _ _ => false

/-- The LOAD or STORE that the word `w` is accesses an address outside memory in state `s` (R162 (b), (c)). -/
def DataOutOfBounds (w : Word) (s : State) : Prop :=
  ∃ (rd rs imm : Nibble) (r : Reg), (decode w = .load rd rs imm ∨ decode w = .store rd rs imm)
    ∧ regOfField rs = some r ∧ s.params.memSize ≤ (baseOffset (readReg s r) imm).toNat

/-- So many steps lead from `s` to `t`, and no instruction that executes in them is a STORE to the address `a`. -/
def CyclesWithoutStoreTo (a : Word) : Nat → State → State → Prop
  | 0, s, t => t = s
  | k + 1, s, t =>
    (∀ (i : Instr) (u : State), cycleFront s = .execute i u → storeAddress i u ≠ some a)
      ∧ ∃ u, step s = .next u ∧ CyclesWithoutStoreTo a k u t

/-! ### Invariants -/

/-- The address of an I/O event. -/
def eventAddress : IoEvent → Word
  | .ioRead a _ => a
  | .ioWrite a _ => a

/-- What holds of every state a core can be in, whatever words its memory holds. -/
structure CoreInv (s : State) : Prop where
  /-- The parameters are in their legal ranges (R7). -/
  paramsLegal : s.params.legal = true
  /-- The memory list has its one canonical form. -/
  memCanonical : s.mem.wf = true
  /-- Storage exists for RAM words only: the I/O region and the addresses from MEM_SIZE on hold none (R20, R33, R43). -/
  ramOnly : ∀ k : Nat, inRam s.params (k / 2) = false → readCell s.mem k = 0x00#8
  /-- Every event of the history is an access to the I/O region (R47). -/
  eventsInIo : ∀ e ∈ s.history, inIo s.params (eventAddress e).toNat = true
  /-- Every IoRead holds what INPUT supplied after the events before it (R44). -/
  readsDrawn : ∀ (before after : List IoEvent) (a v : Word),
    s.history = before ++ .ioRead a v :: after → v = Config.input s.params.inputSource before a
  /-- At most STEP_LIMIT cycles have executed (R81). -/
  stepsWithinLimit : ∀ limit : Nat, s.params.stepLimit = some limit → s.steps ≤ limit

/-- A core that has stopped shows why (R151, R161, R162, R163). -/
def StopExplained (s : State) : Prop :=
  match s.runState with
  | .running => True
  | .halted => decode s.ir = .halt
  | .faulted .invalidOpcode => IllegalWord s.ir
  | .faulted .memoryOutOfBounds => fetchRead s.pc s = none ∨ DataOutOfBounds s.ir s
  | .faulted .stepLimitExceeded => ∃ limit, s.params.stepLimit = some limit ∧ limit ≤ s.steps

/-! ### The end of a run (R196) -/

/-- The run has ended: no cycle executes from here (R29). -/
def Terminal (s : State) : Prop := s.runState ≠ .running

/-- The run ended with success. -/
def Succeeded (s : State) : Prop := s.runState = .halted

/-- The run ended with a fault. -/
def Failed (s : State) : Prop := ∃ k, s.runState = .faulted k

end Sys2Proof.Machine
end

