-- ==== Sys2Proof/Certificates/Slice0/Obligations.lean ====
section
/-! DEFINITION. The statements for the provers, each a Prop. OBLIGATIONS.json lists them with the rules they formalise. -/

open Sys2Proof
open Sys2Proof.Machine

/-! ### Reset -/

/-- R33, R190: what construction leaves, whatever the parameters. -/
def Obligations.ConstructionLeavesResetValues : Prop :=
  ∀ p : Params,
    (∀ r : Reg, readReg (State.init p) r = 0x0000#16)
      ∧ (State.init p).pc = p.entry ∧ (State.init p).ir = 0x0000#16
      ∧ (State.init p).z = false ∧ (State.init p).n = false
      ∧ (State.init p).runState = .running ∧ (State.init p).steps = 0
      ∧ (∀ a : Nat, readStorage (State.init p).mem a = 0x0000#16)
      ∧ (State.init p).history = []

/-- The invariants hold of every core constructed with legal parameters (R7, R33), and of State.reset, whose parameters
are the model's choice (assumption 2). -/
def Obligations.ResetMeetsTheInvariants : Prop :=
  (∀ p : Params, p.legal = true → CoreInv (State.init p) ∧ StopExplained (State.init p))
    ∧ CoreInv State.reset ∧ StopExplained State.reset

/-! ### Decoding and encoding -/

/-- Words written out from the encodings of R68, and the instructions they stand for (a sanity statement). -/
def Obligations.WordsOfTheSpecDecode : Prop :=
  decode 0x0FFF#16 = .reserved ∧ decode 0x1FFF#16 = .nop ∧ decode 0x2ABC#16 = .halt
    ∧ decode 0x33F5#16 = .loadImm 3#4 5#4 ∧ decode 0x501E#16 = .load 0#4 1#4 0xE#4
    ∧ decode 0x7017#16 = .add 0#4 1#4 ∧ decode 0xC120#16 = .cmp 1#4 2#4
    ∧ decode 0xDF37#16 = .jump 3#4 7#4

/-- R62, R64: the four fields are the word's 4-bit digits, their concatenation is the word, and splitting is injective. -/
def Obligations.FieldsOfAWordRoundTrip : Prop :=
  (∀ w : Word, joinFields (splitWord w) = w
      ∧ (splitWord w).op.toNat = w.toNat / 4096
      ∧ (splitWord w).rd.toNat = w.toNat / 256 % 16
      ∧ (splitWord w).rs.toNat = w.toNat / 16 % 16
      ∧ (splitWord w).imm.toNat = w.toNat % 16)
    ∧ (∀ w v : Word, splitWord w = splitWord v → w = v)

/-- Decoding an encoded instruction gives it back: every instruction, every operand at every value. -/
def Obligations.DecodeOfEncodeIsTheInstruction : Prop := ∀ i : Instr, decode (encode i) = i

/-- R71, R74: encoding the decoding of a word clears exactly the bits its opcode ignores, the word executes as that
canonical word does, and the assembler writes 0 in every ignored bit of an instruction. -/
def Obligations.IgnoredBitsHaveNoEffect : Prop :=
  (∀ (w : Word) (s : State),
    encode (decode w) = w &&& usedBits (w.toNat / 4096)
      ∧ decode (w &&& usedBits (w.toNat / 4096)) = decode w
      ∧ exec (decode (w &&& usedBits (w.toNat / 4096))) s = exec (decode w) s)
    ∧ (∀ (a : Asm) (w : Word), assemble a = some w → (∀ v : Word, a ≠ .word v) →
      w &&& usedBits (w.toNat / 4096) = w)

/-- R66, R70, R85: the words that fault InvalidOpcode when executed are exactly the illegal ones, the same whatever the
state, with no effect but the run state (R88); and validation of the fields says the same. -/
def Obligations.InvalidOpcodeExactlyOnIllegalWords : Prop :=
  ∀ (w : Word) (s : State),
    (validFields (splitWord w) = false ↔ IllegalWord w)
      ∧ ((decode w).wellFormed = false ↔ IllegalWord w)
      ∧ (IllegalWord w → exec (decode w) s = .next (setRunState (.faulted .invalidOpcode) s))
      ∧ ∃ t, exec (decode w) s = .next t
          ∧ (t.runState = .faulted .invalidOpcode ↔ IllegalWord w)

/-- R9, R65: a 4-bit immediate is sign-extended: -8 to 7, a word in 0xFFF8 to 0xFFFF or 0 to 7; adding it to a base is
arithmetic modulo 2^16 (R42, R122, R140). -/
def Obligations.SignedOffsetArithmetic : Prop :=
  (∀ f : Nibble, (sext16 f).toNat = if f.toNat ≤ 7 then f.toNat else f.toNat + 0xFFF0)
    ∧ (∀ f : Nibble, (sext16 f).toInt = f.toInt ∧ -8 ≤ (sext16 f).toInt ∧ (sext16 f).toInt ≤ 7)
    ∧ (∀ (base : Word) (f : Nibble),
        ((baseOffset base f).toNat : Int) = ((base.toNat : Int) + f.toInt) % 65536)

/-! ### Arithmetic and logic -/

/-- R101: ADD, its encoding, its validation, its result modulo 2^16, its flags and its frame. -/
def Obligations.AddGivesWrappedSum : Prop :=
  (∀ rd rs x : Nibble, decode (joinFields ⟨0x7#4, rd, rs, x⟩) = .add rd rs)
    ∧ (∀ (rd rs : Nibble) (s : State), 4 ≤ rd.toNat ∨ 4 ≤ rs.toNat →
        exec (.add rd rs) s = .next (setRunState (.faulted .invalidOpcode) s))
    ∧ (∀ (d r : Reg) (s : State), ∃ t,
        exec (.add (fieldOfReg d) (fieldOfReg r)) s = .next t
          ∧ (readReg t d).toNat = ((readReg s d).toNat + (readReg s r).toNat) % 65536
          ∧ FlagsOf (readReg t d) t ∧ FrameReg d s t)

/-- R102: SUB likewise. -/
def Obligations.SubGivesWrappedDifference : Prop :=
  (∀ rd rs x : Nibble, decode (joinFields ⟨0x8#4, rd, rs, x⟩) = .sub rd rs)
    ∧ (∀ (rd rs : Nibble) (s : State), 4 ≤ rd.toNat ∨ 4 ≤ rs.toNat →
        exec (.sub rd rs) s = .next (setRunState (.faulted .invalidOpcode) s))
    ∧ (∀ (d r : Reg) (s : State), ∃ t,
        exec (.sub (fieldOfReg d) (fieldOfReg r)) s = .next t
          ∧ (readReg t d).toNat = ((readReg s d).toNat + 65536 - (readReg s r).toNat) % 65536
          ∧ FlagsOf (readReg t d) t ∧ FrameReg d s t)

/-- R103: AND, bit by bit. -/
def Obligations.AndGivesBitwiseAnd : Prop :=
  (∀ rd rs x : Nibble, decode (joinFields ⟨0x9#4, rd, rs, x⟩) = .and rd rs)
    ∧ (∀ (rd rs : Nibble) (s : State), 4 ≤ rd.toNat ∨ 4 ≤ rs.toNat →
        exec (.and rd rs) s = .next (setRunState (.faulted .invalidOpcode) s))
    ∧ (∀ (d r : Reg) (s : State), ∃ t,
        exec (.and (fieldOfReg d) (fieldOfReg r)) s = .next t
          ∧ (∀ j : Nat, (readReg t d).getLsbD j
              = ((readReg s d).getLsbD j && (readReg s r).getLsbD j))
          ∧ FlagsOf (readReg t d) t ∧ FrameReg d s t)

/-- R104: OR, bit by bit. -/
def Obligations.OrGivesBitwiseOr : Prop :=
  (∀ rd rs x : Nibble, decode (joinFields ⟨0xA#4, rd, rs, x⟩) = .or rd rs)
    ∧ (∀ (rd rs : Nibble) (s : State), 4 ≤ rd.toNat ∨ 4 ≤ rs.toNat →
        exec (.or rd rs) s = .next (setRunState (.faulted .invalidOpcode) s))
    ∧ (∀ (d r : Reg) (s : State), ∃ t,
        exec (.or (fieldOfReg d) (fieldOfReg r)) s = .next t
          ∧ (∀ j : Nat, (readReg t d).getLsbD j
              = ((readReg s d).getLsbD j || (readReg s r).getLsbD j))
          ∧ FlagsOf (readReg t d) t ∧ FrameReg d s t)

/-- R105: XOR, bit by bit. -/
def Obligations.XorGivesBitwiseXor : Prop :=
  (∀ rd rs x : Nibble, decode (joinFields ⟨0xB#4, rd, rs, x⟩) = .xor rd rs)
    ∧ (∀ (rd rs : Nibble) (s : State), 4 ≤ rd.toNat ∨ 4 ≤ rs.toNat →
        exec (.xor rd rs) s = .next (setRunState (.faulted .invalidOpcode) s))
    ∧ (∀ (d r : Reg) (s : State), ∃ t,
        exec (.xor (fieldOfReg d) (fieldOfReg r)) s = .next t
          ∧ (∀ j : Nat, (readReg t d).getLsbD j
              = Bool.xor ((readReg s d).getLsbD j) ((readReg s r).getLsbD j))
          ∧ FlagsOf (readReg t d) t ∧ FrameReg d s t)

/-- R106: CMP sets Z exactly on equality and N from bit 15 of the wrapped difference, and writes no register; N is not an
unsigned less-than. -/
def Obligations.CmpSetsFlagsOnly : Prop :=
  (∀ rd rs x : Nibble, decode (joinFields ⟨0xC#4, rd, rs, x⟩) = .cmp rd rs)
    ∧ (∀ (rd rs : Nibble) (s : State), 4 ≤ rd.toNat ∨ 4 ≤ rs.toNat →
        exec (.cmp rd rs) s = .next (setRunState (.faulted .invalidOpcode) s))
    ∧ (∀ (d r : Reg) (s : State), ∃ t,
        exec (.cmp (fieldOfReg d) (fieldOfReg r)) s = .next t
          ∧ (t.z = true ↔ readReg s d = readReg s r)
          ∧ (t.n = true ↔
              32768 ≤ ((readReg s d).toNat + 65536 - (readReg s r).toNat) % 65536)
          ∧ SameRegs s t ∧ t.pc = s.pc ∧ t.runState = .running ∧ t.history = s.history
          ∧ SameMemory s t ∧ SameOutside s t)
    ∧ (∃ s t : State, exec (.cmp 0#4 1#4) s = .next t
        ∧ (readReg s .r0).toNat < (readReg s .r1).toNat ∧ t.n = false)

/-- R108: the same register as source and destination. -/
def Obligations.SameRegisterOperands : Prop :=
  ∀ (d : Reg) (s : State),
    (∃ t, exec (.add (fieldOfReg d) (fieldOfReg d)) s = .next t
        ∧ (readReg t d).toNat = 2 * (readReg s d).toNat % 65536)
      ∧ (∃ t, exec (.sub (fieldOfReg d) (fieldOfReg d)) s = .next t
        ∧ readReg t d = 0x0000#16 ∧ t.z = true ∧ t.n = false)
      ∧ (∃ t, exec (.xor (fieldOfReg d) (fieldOfReg d)) s = .next t
        ∧ readReg t d = 0x0000#16 ∧ t.z = true ∧ t.n = false)
      ∧ (∃ t, exec (.and (fieldOfReg d) (fieldOfReg d)) s = .next t
        ∧ readReg t d = readReg s d ∧ FlagsOf (readReg s d) t)
      ∧ (∃ t, exec (.or (fieldOfReg d) (fieldOfReg d)) s = .next t
        ∧ readReg t d = readReg s d ∧ FlagsOf (readReg s d) t)
      ∧ (∃ t, exec (.cmp (fieldOfReg d) (fieldOfReg d)) s = .next t
        ∧ t.z = true ∧ t.n = false)

/-! ### Data movement -/

/-- R120: LOAD_IMM. -/
def Obligations.LoadImmLoadsSignedImmediate : Prop :=
  (∀ rd x imm : Nibble, decode (joinFields ⟨0x3#4, rd, x, imm⟩) = .loadImm rd imm)
    ∧ (∀ (rd imm : Nibble) (s : State), 4 ≤ rd.toNat →
        exec (.loadImm rd imm) s = .next (setRunState (.faulted .invalidOpcode) s))
    ∧ (∀ (d : Reg) (imm : Nibble) (s : State), ∃ t,
        exec (.loadImm (fieldOfReg d) imm) s = .next t
          ∧ (readReg t d).toInt = imm.toInt ∧ SameFlags s t ∧ FrameReg d s t)

/-- R121: MOVE. -/
def Obligations.MoveCopiesRegister : Prop :=
  (∀ rd rs x : Nibble, decode (joinFields ⟨0x4#4, rd, rs, x⟩) = .move rd rs)
    ∧ (∀ (rd rs : Nibble) (s : State), 4 ≤ rd.toNat ∨ 4 ≤ rs.toNat →
        exec (.move rd rs) s = .next (setRunState (.faulted .invalidOpcode) s))
    ∧ (∀ (d r : Reg) (s : State), ∃ t,
        exec (.move (fieldOfReg d) (fieldOfReg r)) s = .next t
          ∧ readReg t d = readReg s r ∧ SameFlags s t ∧ FrameReg d s t)

/-- R44, R123: LOAD from RAM, from the I/O region (an INPUT draw and one IoRead event), and out of bounds. The address is
the one the base held before Rd is written (R122). -/
def Obligations.LoadReadsRamOrInputOrFaults : Prop :=
  (∀ rd rs imm : Nibble, decode (joinFields ⟨0x5#4, rd, rs, imm⟩) = .load rd rs imm)
    ∧ (∀ (rd rs imm : Nibble) (s : State), 4 ≤ rd.toNat ∨ 4 ≤ rs.toNat →
        exec (.load rd rs imm) s = .next (setRunState (.faulted .invalidOpcode) s))
    ∧ (∀ (d r : Reg) (imm : Nibble) (s : State),
        s.params.memSize ≤ (baseOffset (readReg s r) imm).toNat →
        exec (.load (fieldOfReg d) (fieldOfReg r) imm) s
          = .next (setRunState (.faulted .memoryOutOfBounds) s))
    ∧ (∀ (d r : Reg) (imm : Nibble) (s : State),
        inRam s.params (baseOffset (readReg s r) imm).toNat = true →
        ∃ t, exec (.load (fieldOfReg d) (fieldOfReg r) imm) s = .next t
          ∧ readReg t d = readStorage s.mem (baseOffset (readReg s r) imm).toNat
          ∧ SameFlags s t ∧ FrameReg d s t)
    ∧ (∀ (d r : Reg) (imm : Nibble) (s : State),
        (baseOffset (readReg s r) imm).toNat < s.params.memSize →
        inIo s.params (baseOffset (readReg s r) imm).toNat = true →
        ∃ t, exec (.load (fieldOfReg d) (fieldOfReg r) imm) s = .next t
          ∧ readReg t d
              = Config.input s.params.inputSource s.history (baseOffset (readReg s r) imm)
          ∧ t.history = s.history ++ [.ioRead (baseOffset (readReg s r) imm) (readReg t d)]
          ∧ SameFlags s t ∧ SameRegsBut d s t ∧ t.pc = s.pc ∧ t.runState = .running
          ∧ SameMemory s t ∧ SameOutside s t)

/-- R45, R124: STORE to RAM, to the I/O region (one IoWrite event, no storage), and out of bounds. -/
def Obligations.StoreWritesRamOrSinkOrFaults : Prop :=
  (∀ rd rs imm : Nibble, decode (joinFields ⟨0x6#4, rd, rs, imm⟩) = .store rd rs imm)
    ∧ (∀ (rd rs imm : Nibble) (s : State), 4 ≤ rd.toNat ∨ 4 ≤ rs.toNat →
        exec (.store rd rs imm) s = .next (setRunState (.faulted .invalidOpcode) s))
    ∧ (∀ (d r : Reg) (imm : Nibble) (s : State),
        s.params.memSize ≤ (baseOffset (readReg s r) imm).toNat →
        exec (.store (fieldOfReg d) (fieldOfReg r) imm) s
          = .next (setRunState (.faulted .memoryOutOfBounds) s))
    ∧ (∀ (d r : Reg) (imm : Nibble) (s : State),
        inRam s.params (baseOffset (readReg s r) imm).toNat = true →
        ∃ t, exec (.store (fieldOfReg d) (fieldOfReg r) imm) s = .next t
          ∧ readStorage t.mem (baseOffset (readReg s r) imm).toNat = readReg s d
          ∧ SameMemoryBut (baseOffset (readReg s r) imm) s t
          ∧ SameRegs s t ∧ SameFlags s t ∧ t.pc = s.pc ∧ t.runState = .running
          ∧ t.history = s.history ∧ SameOutside s t)
    ∧ (∀ (d r : Reg) (imm : Nibble) (s : State),
        (baseOffset (readReg s r) imm).toNat < s.params.memSize →
        inIo s.params (baseOffset (readReg s r) imm).toNat = true →
        ∃ t, exec (.store (fieldOfReg d) (fieldOfReg r) imm) s = .next t
          ∧ t.history = s.history ++ [.ioWrite (baseOffset (readReg s r) imm) (readReg s d)]
          ∧ SameMemory s t
          ∧ SameRegs s t ∧ SameFlags s t ∧ t.pc = s.pc ∧ t.runState = .running
          ∧ SameOutside s t)

/-- R125: after a STORE to RAM, however many cycles follow in which no instruction STOREs to that address, a LOAD that
forms the same address returns the stored word; in the I/O region the LOAD that follows returns an INPUT draw instead. -/
def Obligations.StoreThenLoadReturnsTheWord : Prop :=
  (∀ (d r : Reg) (imm : Nibble) (s : State),
    inRam s.params (baseOffset (readReg s r) imm).toNat = true →
    ∃ t, exec (.store (fieldOfReg d) (fieldOfReg r) imm) s = .next t
      ∧ ∀ (cycles : Nat) (u : State),
          CyclesWithoutStoreTo (baseOffset (readReg s r) imm) cycles t u →
          ∀ (q b : Reg) (k : Nibble),
            baseOffset (readReg u b) k = baseOffset (readReg s r) imm →
            ∃ v, exec (.load (fieldOfReg q) (fieldOfReg b) k) u = .next v
              ∧ readReg v q = readReg s d)
    ∧ (∀ (d r : Reg) (imm : Nibble) (s : State),
      (baseOffset (readReg s r) imm).toNat < s.params.memSize →
      inIo s.params (baseOffset (readReg s r) imm).toNat = true →
      ∃ t, exec (.store (fieldOfReg d) (fieldOfReg r) imm) s = .next t
        ∧ ∀ (q b : Reg) (k : Nibble),
            baseOffset (readReg t b) k = baseOffset (readReg s r) imm →
            ∃ v, exec (.load (fieldOfReg q) (fieldOfReg b) k) t = .next v
              ∧ readReg v q = Config.input s.params.inputSource
                  (s.history ++ [.ioWrite (baseOffset (readReg s r) imm) (readReg s d)])
                  (baseOffset (readReg s r) imm))

/-- R56: a STORE to a RAM address is seen by every later fetch of it, from the very next one on, until an instruction
STOREs there again; every other address is fetched as before. -/
def Obligations.StoreIsSeenByEveryLaterFetch : Prop :=
  ∀ (d r : Reg) (imm : Nibble) (s : State),
    inRam s.params (baseOffset (readReg s r) imm).toNat = true →
    ∃ t, exec (.store (fieldOfReg d) (fieldOfReg r) imm) s = .next t
      ∧ (∀ (cycles : Nat) (u : State),
          CyclesWithoutStoreTo (baseOffset (readReg s r) imm) cycles t u →
          fetchRead (baseOffset (readReg s r) imm) u = some (readReg s d))
      ∧ ∀ a : Word, a ≠ baseOffset (readReg s r) imm → fetchRead a t = fetchRead a s

/-- R50: a RAM write is idempotent: the same STORE executed again changes nothing, not even the list that holds the
memory. -/
def Obligations.RamStoreIsIdempotent : Prop :=
  ∀ (d r : Reg) (imm : Nibble) (s : State),
    s.mem.wf = true → inRam s.params (baseOffset (readReg s r) imm).toNat = true →
    ∃ t, exec (.store (fieldOfReg d) (fieldOfReg r) imm) s = .next t
      ∧ exec (.store (fieldOfReg d) (fieldOfReg r) imm) t = .next t

/-! ### Control flow and control -/

/-- R140, R141: JUMP. -/
def Obligations.JumpGoesToBaseOffset : Prop :=
  (∀ x rs imm : Nibble, decode (joinFields ⟨0xD#4, x, rs, imm⟩) = .jump rs imm)
    ∧ (∀ (rs imm : Nibble) (s : State), 4 ≤ rs.toNat →
        exec (.jump rs imm) s = .next (setRunState (.faulted .invalidOpcode) s))
    ∧ (∀ (r : Reg) (imm : Nibble) (s : State), ∃ t,
        exec (.jump (fieldOfReg r) imm) s = .next t
          ∧ (t.pc.toNat : Int) = ((readReg s r).toNat + imm.toInt) % 65536
          ∧ SameRegs s t ∧ SameFlags s t ∧ t.runState = .running ∧ t.history = s.history
          ∧ SameMemory s t ∧ SameOutside s t)

/-- R142: JUMP_IF_ZERO, taken and not taken; a bad register field faults either way. -/
def Obligations.JumpIfZeroFollowsZ : Prop :=
  (∀ x rs imm : Nibble, decode (joinFields ⟨0xE#4, x, rs, imm⟩) = .jumpIfZero rs imm)
    ∧ (∀ (rs imm : Nibble) (s : State), 4 ≤ rs.toNat →
        exec (.jumpIfZero rs imm) s = .next (setRunState (.faulted .invalidOpcode) s))
    ∧ (∀ (r : Reg) (imm : Nibble) (s : State), ∃ t,
        exec (.jumpIfZero (fieldOfReg r) imm) s = .next t
          ∧ (s.z = true → (t.pc.toNat : Int) = ((readReg s r).toNat + imm.toInt) % 65536)
          ∧ (s.z = false → t.pc = s.pc)
          ∧ SameRegs s t ∧ SameFlags s t ∧ t.runState = .running ∧ t.history = s.history
          ∧ SameMemory s t ∧ SameOutside s t)

/-- R143: JUMP_IF_NOT_ZERO likewise, on Z clear. -/
def Obligations.JumpIfNotZeroFollowsNotZ : Prop :=
  (∀ x rs imm : Nibble, decode (joinFields ⟨0xF#4, x, rs, imm⟩) = .jumpIfNotZero rs imm)
    ∧ (∀ (rs imm : Nibble) (s : State), 4 ≤ rs.toNat →
        exec (.jumpIfNotZero rs imm) s = .next (setRunState (.faulted .invalidOpcode) s))
    ∧ (∀ (r : Reg) (imm : Nibble) (s : State), ∃ t,
        exec (.jumpIfNotZero (fieldOfReg r) imm) s = .next t
          ∧ (s.z = false → (t.pc.toNat : Int) = ((readReg s r).toNat + imm.toInt) % 65536)
          ∧ (s.z = true → t.pc = s.pc)
          ∧ SameRegs s t ∧ SameFlags s t ∧ t.runState = .running ∧ t.history = s.history
          ∧ SameMemory s t ∧ SameOutside s t)

/-- R150, R151, R152: every word of the three ranges, and what each does when executed and as a whole cycle: nothing beyond
the fetch, the run state Halted, the fault InvalidOpcode. -/
def Obligations.ControlWordsAndTheReservedOpcode : Prop :=
  (∀ x y k : Nibble, decode (joinFields ⟨0x1#4, x, y, k⟩) = .nop
      ∧ decode (joinFields ⟨0x2#4, x, y, k⟩) = .halt
      ∧ decode (joinFields ⟨0x0#4, x, y, k⟩) = .reserved)
    ∧ (∀ s : State, exec .nop s = .next (setRunState .running s)
      ∧ exec .halt s = .next (setRunState .halted s)
      ∧ exec .reserved s = .next (setRunState (.faulted .invalidOpcode) s))
    ∧ (∀ (s : State) (w : Word), s.runState = .running → stepLimitReached s = false →
        fetchRead s.pc s = some w →
        (w.toNat / 4096 = 1 →
            step s = .next { s with steps := s.steps + 1, ir := w, pc := s.pc + 1#16 })
          ∧ (w.toNat / 4096 = 2 →
            step s = .next { s with steps := s.steps + 1, ir := w, pc := s.pc + 1#16,
                                    runState := .halted })
          ∧ (w.toNat / 4096 = 0 →
            step s = .next { s with steps := s.steps + 1, ir := w, pc := s.pc + 1#16,
                                    runState := .faulted .invalidOpcode }))

/-! ### The cycle -/

/-- R80, R83: a cycle that fetches the word `w` runs the instruction `w` decodes to, well-formed or not, in the state with
the step counted, IR at `w` and PC advanced modulo 2^16. -/
def Obligations.StepRunsTheFetchedInstruction : Prop :=
  ∀ (s : State) (w : Word),
    s.runState = .running → stepLimitReached s = false → fetchRead s.pc s = some w →
    ∃ a : Word, a.toNat = (s.pc.toNat + 1) % 65536
      ∧ step s = exec (decode w) { s with steps := s.steps + 1, ir := w, pc := a }

/-- R12, in the form of assumption 5: every step, in every state, answers a next state. -/
def Obligations.EveryStepAnswersNext : Prop := ∀ s : State, ∃ t, step s = .next t

/-- R81, R163: when the limit is reached nothing is fetched and nothing but the run state changes; where it is not reached,
or there is none, no cycle raises StepLimitExceeded; so no more than L cycles execute. -/
def Obligations.StepLimitStopsBeforeTheFetch : Prop :=
  (∀ (s : State) (limit : Nat), s.runState = .running → s.params.stepLimit = some limit →
      limit ≤ s.steps → step s = .next (setRunState (.faulted .stepLimitExceeded) s))
    ∧ (∀ s t : State, s.runState = .running →
      (∀ limit : Nat, s.params.stepLimit = some limit → s.steps < limit) → step s = .next t →
      t.runState ≠ .faulted .stepLimitExceeded)
    ∧ (∀ (s t : State) (limit k : Nat), s.params.stepLimit = some limit → s.steps ≤ limit →
      Host.Core.run Sys2Proof.core k s = .next t → t.steps ≤ limit)

/-- R46, R82: a fetch from RAM reads its word; a fetch outside memory or from the I/O region faults, and only the step
counter and the run state change. -/
def Obligations.FaultingFetchKeepsIrAndPc : Prop :=
  (∀ (a : Word) (s : State), inRam s.params a.toNat = true →
      fetchRead a s = some (readStorage s.mem a.toNat))
    ∧ (∀ s : State, s.runState = .running → stepLimitReached s = false →
      (s.params.memSize ≤ s.pc.toNat ∨ inIo s.params s.pc.toNat = true) →
      fetchRead s.pc s = none
        ∧ step s = .next { s with steps := s.steps + 1, runState := .faulted .memoryOutOfBounds })

/-- R91, R167, R168: from a terminal state step() returns its outcome and changes nothing, and so does any number of
steps. -/
def Obligations.TerminalStatesAreForEver : Prop :=
  (∀ (s : State) (k : Nat), Terminal s → Host.Core.run Sys2Proof.core k s = .next s)
    ∧ (∀ s : State, s.runState = .halted → hostStep s = some (.halt, s))
    ∧ (∀ (s : State) (k : Fault), s.runState = .faulted k → hostStep s = some (.fault k, s))

/-- R89: PC at the end of a cycle that fetched the word `w`. -/
def Obligations.PcAtTheEndOfACycle : Prop :=
  ∀ (s t : State) (w : Word),
    s.runState = .running → stepLimitReached s = false → fetchRead s.pc s = some w →
    step s = .next t →
    (∀ (r : Reg) (imm : Nibble),
        (decode w = .jump (fieldOfReg r) imm
          ∨ (decode w = .jumpIfZero (fieldOfReg r) imm ∧ s.z = true)
          ∨ (decode w = .jumpIfNotZero (fieldOfReg r) imm ∧ s.z = false)) →
        t.pc = baseOffset (readReg s r) imm)
      ∧ ((∀ (r : Reg) (imm : Nibble),
          ¬ (decode w = .jump (fieldOfReg r) imm
            ∨ (decode w = .jumpIfZero (fieldOfReg r) imm ∧ s.z = true)
            ∨ (decode w = .jumpIfNotZero (fieldOfReg r) imm ∧ s.z = false))) →
        t.pc = s.pc + 1#16)

/-- R87: a cycle that executes leaves the run state its outcome gives: Halted exactly for HALT, and Running unless it
halts or faults. -/
def Obligations.HaltedExactlyByHalt : Prop :=
  ∀ (i : Instr) (s : State), ∃ t, exec i s = .next t
    ∧ (t.runState = .halted ↔ i = .halt)
    ∧ (t.runState = .running ∨ t.runState = .halted ∨ t.runState = .faulted .invalidOpcode
        ∨ t.runState = .faulted .memoryOutOfBounds)

/-- R86: what the executor may write in one cycle: at most one general register, both flags or none and only for the six
flag writers, PC only for a jump, at most one word of memory, at most one I/O event, and nothing of IR, the step counter or
the parameters. -/
def Obligations.ExecutorWriteBounds : Prop :=
  ∀ (i : Instr) (s t : State), exec i s = .next t →
    (∃ d : Reg, SameRegsBut d s t)
      ∧ (writesFlags i = false → SameFlags s t)
      ∧ ((∀ rs imm : Nibble, i ≠ .jump rs imm ∧ i ≠ .jumpIfZero rs imm
            ∧ i ≠ .jumpIfNotZero rs imm) → t.pc = s.pc)
      ∧ (storeAddress i s = none → SameMemory s t)
      ∧ (∀ a : Word, storeAddress i s = some a → SameMemoryBut a s t)
      ∧ (t.history = s.history ∨ ∃ e, t.history = s.history ++ [e])
      ∧ SameOutside s t

/-- R27: the six flag writers set both flags from the result they compute; no other instruction, and no faulting one,
writes a flag. -/
def Obligations.FlagsFollowTheResultOfTheSix : Prop :=
  ∀ (i : Instr) (s : State), ∃ t, exec i s = .next t
    ∧ (∀ r : Word, flagResult i s = some r → FlagsOf r t)
    ∧ (flagResult i s = none → SameFlags s t)

/-- R24, R25, R30: what a step does to IR and the step counter: nothing where no cycle starts (a terminal state, the step
limit); one more step and the old IR and PC where the fetch faults; one more step and the fetched word in IR otherwise. -/
def Obligations.IrAndStepCountOfACycle : Prop :=
  ∀ s : State, ∃ t, step s = .next t
    ∧ ((Terminal s ∨ stepLimitReached s = true) →
        t.ir = s.ir ∧ t.pc = s.pc ∧ t.steps = s.steps)
    ∧ (s.runState = .running → stepLimitReached s = false → fetchRead s.pc s = none →
        t.ir = s.ir ∧ t.pc = s.pc ∧ t.steps = s.steps + 1)
    ∧ (∀ w : Word, s.runState = .running → stepLimitReached s = false →
        fetchRead s.pc s = some w → t.ir = w ∧ t.steps = s.steps + 1)

/-- R88: a cycle that faults has changed only the step counter, IR, PC (by the fetch) and the run state. -/
def Obligations.FaultingCycleHasNoOtherEffect : Prop :=
  ∀ (s t : State) (k : Fault), s.runState = .running → step s = .next t →
    t.runState = .faulted k →
    SameRegs s t ∧ SameFlags s t ∧ SameMemory s t ∧ t.history = s.history
      ∧ t.params = s.params ∧ (t.pc = s.pc ∨ t.pc = s.pc + 1#16)

/-- R164: which fault a cycle reports, in the order of the cycle's checks, and that it reports none otherwise. -/
def Obligations.FaultPriority : Prop :=
  ∀ s : State, s.runState = .running → ∃ t, step s = .next t
    ∧ (stepLimitReached s = true → t.runState = .faulted .stepLimitExceeded)
    ∧ (stepLimitReached s = false → fetchRead s.pc s = none →
        t.runState = .faulted .memoryOutOfBounds)
    ∧ (∀ w, stepLimitReached s = false → fetchRead s.pc s = some w → IllegalWord w →
        t.runState = .faulted .invalidOpcode)
    ∧ (∀ w, stepLimitReached s = false → fetchRead s.pc s = some w → ¬ IllegalWord w →
        DataOutOfBounds w s → t.runState = .faulted .memoryOutOfBounds)
    ∧ (∀ w, stepLimitReached s = false → fetchRead s.pc s = some w → ¬ IllegalWord w →
        ¬ DataOutOfBounds w s → ∀ k, t.runState ≠ .faulted k)

/-- R7: the parameters, which State carries by the model's choice (assumption 1), are fixed for the life of the core. -/
def Obligations.ParametersNeverChange : Prop :=
  ∀ s t : State, step s = .next t → t.params = s.params

/-! ### Whole runs -/

/-- Every step keeps the invariant, from every state that meets it. -/
def Obligations.EveryStepKeepsTheInvariant : Prop :=
  ∀ s t : State, CoreInv s → step s = .next t → CoreInv t

/-- Every step from an explained state leads to an explained state: a core that has stopped shows why (R151, R161 to
R163). -/
def Obligations.EveryStopIsExplained : Prop :=
  ∀ s t : State, StopExplained s → step s = .next t → StopExplained t

/-- R81: with the step limit L, a run from any state ends: after L - steps + 1 steps the state is terminal, and no more
than L cycles have executed if no more had before. -/
def Obligations.StepLimitEndsEveryRun : Prop :=
  ∀ (s : State) (limit : Nat), s.params.stepLimit = some limit →
    ∃ t : State, Host.Core.run Sys2Proof.core (limit - s.steps + 1) s = .next t
      ∧ Terminal t ∧ (s.steps ≤ limit → t.steps ≤ limit)

/-- R92: run() returns the first outcome other than Continue, with the core in the corresponding terminal state, which
is what that many steps reach; called in a terminal state it returns that state's outcome at once; and while it has not
returned, no step has reached a terminal state. -/
def Obligations.RunReturnsATerminalOutcome : Prop :=
  (∀ (fuel : Nat) (s t : State) (o : StepOutcome), hostRun fuel s = some (o, t) →
      o ≠ .cont ∧ t.runState = nextState o
        ∧ ∃ k, 1 ≤ k ∧ k ≤ fuel ∧ Host.Core.run Sys2Proof.core k s = .next t)
    ∧ (∀ (fuel : Nat) (s : State), Terminal s → hostRun (fuel + 1) s = some (outcomeOf s, s))
    ∧ (∀ (fuel : Nat) (s : State), hostRun fuel s = none → ∀ k : Nat, 1 ≤ k → k ≤ fuel →
      ∃ t, Host.Core.run Sys2Proof.core k s = .next t ∧ ¬ Terminal t)

/-! ### What cannot be learnt -/

/-- R28: N is read by no instruction: two states that differ in N alone step to states that differ at most in N. -/
def Obligations.NegativeFlagIsNeverRead : Prop :=
  ∀ (s t : State) (b : Bool), step s = .next t →
    ∃ b' : Bool, step { s with n := b } = .next { t with n := b' }

/-- R30: the step counter is compared with STEP_LIMIT and has no other effect: with no limit, two states that differ in it
alone step to states that differ at most in it. -/
def Obligations.StepCounterOnlyServesTheLimit : Prop :=
  ∀ (s t : State) (k : Nat), s.params.stepLimit = none → step s = .next t →
    ∃ k' : Nat, step { s with steps := k } = .next { t with steps := k' }

/-- R165: input is obtained only when a LOAD reads the I/O region: with no such region, which input source the core was
built with (a number, assumption 3) changes nothing else. -/
def Obligations.NoIoRegionNoInput : Prop :=
  ∀ (s t : State) (source : Nat), s.params.ioSize = 0 → step s = .next t →
    step { s with params := { s.params with inputSource := source } }
      = .next { t with params := { t.params with inputSource := source } }

/-! ### Memory and the host -/

/-- Two memories in canonical form (the model's choice, assumption 4) that read the same at every cell are the same list. -/
def Obligations.CanonicalMemoryIsUnique : Prop :=
  ∀ m l : Memory, m.wf = true → l.wf = true → (∀ k : Nat, readCell m k = readCell l k) → m = l

/-- R58: when a transaction answers out of bounds, it has changed nothing; a fetch changes nothing, a read changes no
storage; and which addresses each transaction finds out of bounds (R44 to R46). -/
def Obligations.PortOutOfBoundsChangesNothing : Prop :=
  ∀ (q : PortRequest) (s : State),
    ((portTransaction q s).1 = .oob → (portTransaction q s).2 = s)
      ∧ (∀ a : Word, (portTransaction (.fetch a) s).2 = s
        ∧ (portTransaction (.read a) s).2.mem = s.mem
        ∧ ((portTransaction (.fetch a) s).1 = .oob ↔
            s.params.memSize ≤ a.toNat ∨ inIo s.params a.toNat = true)
        ∧ ((portTransaction (.read a) s).1 = .oob ↔ s.params.memSize ≤ a.toNat)
        ∧ ∀ v : Word, ((portTransaction (.write a v) s).1 = .oob ↔ s.params.memSize ≤ a.toNat))

/-- R193: load succeeds exactly when the whole range is in RAM; then it writes the words at consecutive addresses and
nothing else. -/
def Obligations.HostLoadWritesTheWords : Prop :=
  ∀ (a : Word) (ws : List Word) (s : State),
    (hostLoad a ws s ≠ none ↔
        a.toNat + ws.length ≤ s.params.memSize
          ∧ ∀ j : Nat, j < ws.length → inIo s.params (a.toNat + j) = false)
      ∧ ∀ t : State, hostLoad a ws s = some t →
          (∀ (j : Nat) (h : j < ws.length), readStorage t.mem (a.toNat + j) = ws[j])
            ∧ (∀ b : Nat, (b < a.toNat ∨ a.toNat + ws.length ≤ b) →
                readStorage t.mem b = readStorage s.mem b)
            ∧ t = { s with mem := t.mem }

/-- A load keeps the invariant. -/
def Obligations.HostLoadKeepsTheInvariant : Prop :=
  ∀ (a : Word) (ws : List Word) (s t : State),
    CoreInv s → hostLoad a ws s = some t → CoreInv t

/-- A loaded program's first word is what the next cycle runs: withFetchWord places a word that step then executes, from
every running core whose PC is in RAM. That withFetchWord stands for the host's load is the model's choice
(assumption 8). -/
def Obligations.LoadedWordIsFetched : Prop :=
  ∀ (s : State) (w : Word), s.runState = .running → stepLimitReached s = false →
    inRam s.params s.pc.toNat = true →
    ∃ m : Memory, s.withFetchWord 16 w.toNat = { s with mem := m }
      ∧ step (s.withFetchWord 16 w.toNat)
          = exec (decode w) { s with mem := m, steps := s.steps + 1, ir := w, pc := s.pc + 1#16 }

/-- R194: what read_mem answers. -/
def Obligations.InspectionOfMemory : Prop :=
  ∀ (a : Word) (s : State),
    (s.params.memSize ≤ a.toNat → hostReadMem a s = .outOfBounds)
      ∧ (a.toNat < s.params.memSize → inIo s.params a.toNat = true →
          hostReadMem a s = .ioNoStorage)
      ∧ (inRam s.params a.toNat = true →
          hostReadMem a s = .word (readStorage s.mem a.toNat))

/-- R73, R74: the words of the assembly syntax, digit by digit; an offset omitted in LOAD, STORE or any jump means 0, and an
immediate outside -8..7 is refused. -/
def Obligations.AssemblerWordsAndRefusals : Prop :=
  ∀ (d s : Reg) (k : Int),
    assemble .nop = some 0x1000#16 ∧ assemble .halt = some 0x2000#16
      ∧ (∀ v : Word, assemble (.word v) = some v)
      ∧ ([(Asm.move d s, 4), (.add d s, 7), (.sub d s, 8), (.and d s, 9), (.or d s, 10),
            (.xor d s, 11), (.cmp d s, 12)].all fun p =>
          (assemble p.1).map BitVec.toNat
            == some (4096 * p.2 + 256 * (fieldOfReg d).toNat + 16 * (fieldOfReg s).toNat)) = true
      ∧ assemble (.load d s none) = assemble (.load d s (some 0))
      ∧ assemble (.store d s none) = assemble (.store d s (some 0))
      ∧ assemble (.jump s none) = assemble (.jump s (some 0))
      ∧ assemble (.jumpIfZero s none) = assemble (.jumpIfZero s (some 0))
      ∧ assemble (.jumpIfNotZero s none) = assemble (.jumpIfNotZero s (some 0))
      ∧ (k < -8 ∨ 7 < k → assemble (.loadImm d k) = none ∧ assemble (.load d s (some k)) = none
          ∧ assemble (.store d s (some k)) = none ∧ assemble (.jump s (some k)) = none
          ∧ assemble (.jumpIfZero s (some k)) = none ∧ assemble (.jumpIfNotZero s (some k)) = none)
      ∧ (-8 ≤ k → k ≤ 7 →
          ((assemble (.loadImm d k)).map (fun w => (w.toNat : Int))
              = some (0x3000 + 256 * (fieldOfReg d).toNat + k % 16))
            ∧ ((assemble (.load d s (some k))).map (fun w => (w.toNat : Int))
              = some (0x5000 + 256 * (fieldOfReg d).toNat + 16 * (fieldOfReg s).toNat + k % 16))
            ∧ ((assemble (.store d s (some k))).map (fun w => (w.toNat : Int))
              = some (0x6000 + 256 * (fieldOfReg d).toNat + 16 * (fieldOfReg s).toNat + k % 16))
            ∧ ((assemble (.jump s (some k))).map (fun w => (w.toNat : Int))
              = some (0xD000 + 16 * (fieldOfReg s).toNat + k % 16))
            ∧ ((assemble (.jumpIfZero s (some k))).map (fun w => (w.toNat : Int))
              = some (0xE000 + 16 * (fieldOfReg s).toNat + k % 16))
            ∧ ((assemble (.jumpIfNotZero s (some k))).map (fun w => (w.toNat : Int))
              = some (0xF000 + 16 * (fieldOfReg s).toNat + k % 16)))

/-- R73, R74, 93 I2: the text of every statement the assembler accepts reads back as that statement, and so assembles to its
word; every text whose mnemonic is NOT, CALL or RETURN, which R69 leaves out, is refused, with operands or without. Where a
mnemonic ends, and how a text is read where R73 is silent, is the model's choice (assumption 14). -/
def Obligations.AssemblyTextReadsBack : Prop :=
  (∀ a : Asm, assemble a ≠ none →
      readStatement (asmChars a) = some a ∧ assembleChars (asmChars a) = assemble a)
    ∧ (∀ text : List Char,
      ((splitMnemonic text).1 = ['N', 'O', 'T'] ∨ (splitMnemonic text).1 = ['C', 'A', 'L', 'L']
        ∨ (splitMnemonic text).1 = ['R', 'E', 'T', 'U', 'R', 'N']) →
      assembleChars text = none)
end

