-- ==== Sys2Proof/Laws/Decode.lean ====
section
/-! SUPPORT. The fields of a word as numbers, a field's value by cases, and the legality of an instruction through its
fields. -/

namespace Sys2Proof

theorem splitWord_op_toNat (w : Word) : (splitWord w).op.toNat = w.toNat / 4096 := by
  have := w.isLt
  simp only [splitWord, BitVec.extractLsb'_toNat, Nat.shiftRight_eq_div_pow]
  omega

theorem splitWord_rd_toNat (w : Word) : (splitWord w).rd.toNat = w.toNat / 256 % 16 := by
  simp only [splitWord, BitVec.extractLsb'_toNat, Nat.shiftRight_eq_div_pow]

theorem splitWord_rs_toNat (w : Word) : (splitWord w).rs.toNat = w.toNat / 16 % 16 := by
  simp only [splitWord, BitVec.extractLsb'_toNat, Nat.shiftRight_eq_div_pow]

theorem splitWord_imm_toNat (w : Word) : (splitWord w).imm.toNat = w.toNat % 16 := by
  simp only [splitWord, BitVec.extractLsb'_toNat, Nat.shiftRight_eq_div_pow]
  omega

/-- The number of a concatenation: its four fields are its hexadecimal digits, op first. -/
theorem joinFields_toNat (f : Fields) :
    (joinFields f).toNat
      = 4096 * f.op.toNat + 256 * f.rd.toNat + 16 * f.rs.toNat + f.imm.toNat := by
  have h1 := f.op.isLt
  have h2 := f.rd.isLt
  have h3 := f.rs.isLt
  have h4 := f.imm.isLt
  unfold joinFields
  rw [BitVec.toNat_append, ← Nat.shiftLeft_add_eq_or_of_lt (by omega), BitVec.toNat_append,
    ← Nat.shiftLeft_add_eq_or_of_lt (by omega), BitVec.toNat_append,
    ← Nat.shiftLeft_add_eq_or_of_lt (by omega)]
  simp only [Nat.shiftLeft_eq]
  omega

/-- A field holds one of sixteen values. -/
theorem nibble_cases (f : Nibble) :
    f = 0x0#4 ∨ f = 0x1#4 ∨ f = 0x2#4 ∨ f = 0x3#4 ∨ f = 0x4#4 ∨ f = 0x5#4 ∨ f = 0x6#4 ∨ f = 0x7#4
      ∨ f = 0x8#4 ∨ f = 0x9#4 ∨ f = 0xA#4 ∨ f = 0xB#4 ∨ f = 0xC#4 ∨ f = 0xD#4 ∨ f = 0xE#4
      ∨ f = 0xF#4 := by
  revert f; decide

/-- The validation of the fields (R85) refuses exactly what is not well-formed as an instruction (R70). -/
theorem instrOfFields_wellFormed (f : Fields) : (instrOfFields f).wellFormed = validFields f := by
  obtain ⟨op, rd, rs, imm⟩ := f
  rcases nibble_cases op with h | h | h | h | h | h | h | h | h | h | h | h | h | h | h | h <;>
    subst h <;>
    simp [instrOfFields, Instr.wellFormed, validFields, shapeOfOp, Shape.usesRd, Shape.usesRs]

end Sys2Proof
end

