-- ==== Sys2Proof/Laws/Memory.lean ====
section
/-! SUPPORT. Memory as a list of cells: what a read finds after a write, and that every operation keeps the canonical
form. -/

namespace Sys2Proof.Machine

/-! ### Cells -/

theorem readCell_cons (c : Host.Cell) (m : Memory) (k : Nat) :
    readCell (c :: m) k = if c.1 = k then c.2 else readCell m k := rfl

/-- Below the first listed cell everything reads 0. -/
theorem readCell_below {lo : Nat} {m : Memory} (h : memWfFrom lo m = true) {k : Nat} (hk : k < lo) :
    readCell m k = 0x00#8 := by
  induction m generalizing lo with
  | nil => rfl
  | cons c rest ih =>
    simp only [memWfFrom, Bool.and_eq_true, decide_eq_true_eq] at h
    rw [readCell_cons, if_neg (by omega)]
    exact ih h.2 (by omega)

theorem readCell_eraseCell (j k : Nat) (m : Memory) :
    readCell (eraseCell k m) j = if j = k then 0x00#8 else readCell m j := by
  induction m with
  | nil => simp [eraseCell, readCell]
  | cons c rest ih =>
    by_cases hc : c.1 = k
    · by_cases hj : j = k
      · subst hj; simp [eraseCell, hc, ih]
      · simp [eraseCell, hc, ih, hj, readCell, Ne.symm hj]
    · by_cases hj : j = k
      · subst hj; simp [eraseCell, hc, ih, readCell]
      · simp [eraseCell, hc, ih, hj, readCell]

theorem readCell_insertCell (j k : Nat) (v : Byte) (m : Memory) :
    readCell (insertCell k v m) j = if j = k then v else readCell m j := by
  induction m with
  | nil => simp [insertCell, readCell, eq_comm]
  | cons c rest ih =>
    by_cases hlt : k < c.1
    · simp [insertCell, hlt, readCell, eq_comm]
    · by_cases he : k = c.1
      · by_cases hj : j = c.1
        · simp [insertCell, he, readCell, hj]
        · simp [insertCell, he, readCell, hj, Ne.symm hj]
      · by_cases hj : j = k
        · subst hj; simp [insertCell, hlt, he, readCell, ih, Ne.symm he]
        · simp [insertCell, hlt, he, readCell, ih, hj]

/-- Reading a cell after writing one, in any list. -/
theorem readCell_writeCell (j k : Nat) (v : Byte) (m : Memory) :
    readCell (writeCell k v m) j = if j = k then v else readCell m j := by
  unfold writeCell
  split
  · rename_i h; rw [readCell_eraseCell, h]
  · exact readCell_insertCell j k v m

theorem readCell_writeCell_same (k : Nat) (v : Byte) (m : Memory) :
    readCell (writeCell k v m) k = v := by rw [readCell_writeCell, if_pos rfl]

theorem readCell_writeCell_ne {j k : Nat} (h : j ≠ k) (v : Byte) (m : Memory) :
    readCell (writeCell k v m) j = readCell m j := by rw [readCell_writeCell, if_neg h]

/-! ### The canonical form -/

theorem memWfFrom_mono {lo lo' : Nat} {m : Memory} (h : memWfFrom lo m = true) (hl : lo' ≤ lo) :
    memWfFrom lo' m = true := by
  cases m with
  | nil => rfl
  | cons c rest =>
    simp only [memWfFrom, Bool.and_eq_true, decide_eq_true_eq] at h ⊢
    exact ⟨⟨by omega, h.1.2⟩, h.2⟩

theorem memWfFrom_eraseCell {lo : Nat} {m : Memory} (h : memWfFrom lo m = true) (k : Nat) :
    memWfFrom lo (eraseCell k m) = true := by
  induction m generalizing lo with
  | nil => rfl
  | cons c rest ih =>
    simp only [memWfFrom, Bool.and_eq_true, decide_eq_true_eq] at h
    simp only [eraseCell]
    split
    · exact memWfFrom_mono (ih h.2) (by omega)
    · simp only [memWfFrom, Bool.and_eq_true, decide_eq_true_eq]
      exact ⟨h.1, ih h.2⟩

theorem memWfFrom_insertCell {lo : Nat} {m : Memory} (h : memWfFrom lo m = true) {k : Nat} (hk : lo ≤ k) {v : Byte}
    (hv : v ≠ 0x00#8) : memWfFrom lo (insertCell k v m) = true := by
  induction m generalizing lo with
  | nil => simp [insertCell, memWfFrom, hk, hv]
  | cons c rest ih =>
    have h' := h
    simp only [memWfFrom, Bool.and_eq_true, decide_eq_true_eq] at h
    simp only [insertCell]
    split
    · simp only [memWfFrom, Bool.and_eq_true, decide_eq_true_eq]
      exact ⟨⟨hk, by simpa using hv⟩, ⟨⟨by omega, h.1.2⟩, h.2⟩⟩
    · split
      · rename_i h1 h2
        simp only [memWfFrom, Bool.and_eq_true, decide_eq_true_eq]
        exact ⟨⟨hk, by simpa using hv⟩, by rw [h2]; exact h.2⟩
      · simp only [memWfFrom, Bool.and_eq_true, decide_eq_true_eq]
        exact ⟨h.1, ih h.2 (by omega)⟩

theorem Memory.wf_nil : Memory.wf [] = true := rfl

theorem Memory.wf_writeCell {m : Memory} (h : m.wf = true) (k : Nat) (v : Byte) :
    Memory.wf (writeCell k v m) = true := by
  unfold writeCell
  split
  · exact memWfFrom_eraseCell h k
  · rename_i hv; exact memWfFrom_insertCell h (Nat.zero_le k) hv

theorem Memory.wf_writeStorage {m : Memory} (h : m.wf = true) (a : Nat) (v : Word) :
    Memory.wf (writeStorage a v m) = true :=
  Memory.wf_writeCell (Memory.wf_writeCell h _ _) _ _

theorem Memory.wf_writeWords {m : Memory} (h : m.wf = true) (a : Nat) (ws : List Word) :
    Memory.wf (writeWords a ws m) = true := by
  induction ws generalizing a m with
  | nil => exact h
  | cons w rest ih => exact ih (Memory.wf_writeStorage h a w) (a + 1)

/-! ### Words -/

theorem word_of_halves (v : Word) : v.extractLsb' 8 8 ++ v.extractLsb' 0 8 = v := by
  apply BitVec.eq_of_toNat_eq
  simp only [BitVec.toNat_append, BitVec.extractLsb'_toNat, Nat.shiftRight_zero]
  rw [← Nat.shiftLeft_add_eq_or_of_lt (by omega), Nat.shiftLeft_eq, Nat.shiftRight_eq_div_pow]
  have := v.isLt
  omega

theorem readStorage_writeStorage_same (a : Nat) (v : Word) (m : Memory) :
    readStorage (writeStorage a v m) a = v := by
  unfold readStorage writeStorage
  rw [readCell_writeCell_same, readCell_writeCell_ne (by omega), readCell_writeCell_same]
  exact word_of_halves v

theorem readCell_writeStorage_ne {k a : Nat} (h : k / 2 ≠ a) (v : Word) (m : Memory) :
    readCell (writeStorage a v m) k = readCell m k := by
  unfold writeStorage
  rw [readCell_writeCell_ne (by omega), readCell_writeCell_ne (by omega)]

theorem readStorage_writeStorage_ne {a b : Nat} (h : b ≠ a) (v : Word) (m : Memory) :
    readStorage (writeStorage a v m) b = readStorage m b := by
  unfold readStorage
  rw [readCell_writeStorage_ne (by omega), readCell_writeStorage_ne (by omega)]

/-- A word is read from its two cells alone. -/
theorem readStorage_congr {m l : Memory} {a : Nat} (h : ∀ k, k / 2 = a → readCell l k = readCell m k) :
    readStorage l a = readStorage m a := by
  unfold readStorage
  rw [h (2 * a + 1) (by omega), h (2 * a) (by omega)]

theorem readStorage_nil (a : Nat) : readStorage [] a = 0x0000#16 := by
  simp [readStorage, readCell]

end Sys2Proof.Machine
end

