-- ==== Sys2Proof/Laws/State.lean ====
section
/-! SUPPORT. What each state update does to each field, and to each general register: one small lemma each, so that no
proof unfolds an update. -/

namespace Sys2Proof.Machine

/-! ### General registers -/

@[simp] theorem readReg_writeReg_same (d : Reg) (v : Word) (s : State) :
    readReg (writeReg d v s) d = v := by
  cases d <;> rfl

theorem readReg_writeReg_ne {d q : Reg} (h : q ≠ d) (v : Word) (s : State) :
    readReg (writeReg d v s) q = readReg s q := by
  cases d <;> cases q <;> first | rfl | exact absurd rfl h

@[simp] theorem writeReg_pc (d : Reg) (v : Word) (s : State) :
    (writeReg d v s).pc = s.pc := by
  cases d <;> rfl

@[simp] theorem writeReg_ir (d : Reg) (v : Word) (s : State) :
    (writeReg d v s).ir = s.ir := by
  cases d <;> rfl

@[simp] theorem writeReg_z (d : Reg) (v : Word) (s : State) :
    (writeReg d v s).z = s.z := by
  cases d <;> rfl

@[simp] theorem writeReg_n (d : Reg) (v : Word) (s : State) :
    (writeReg d v s).n = s.n := by
  cases d <;> rfl

@[simp] theorem writeReg_runState (d : Reg) (v : Word) (s : State) :
    (writeReg d v s).runState = s.runState := by
  cases d <;> rfl

@[simp] theorem writeReg_steps (d : Reg) (v : Word) (s : State) :
    (writeReg d v s).steps = s.steps := by
  cases d <;> rfl

@[simp] theorem writeReg_mem (d : Reg) (v : Word) (s : State) :
    (writeReg d v s).mem = s.mem := by
  cases d <;> rfl

@[simp] theorem writeReg_history (d : Reg) (v : Word) (s : State) :
    (writeReg d v s).history = s.history := by
  cases d <;> rfl

@[simp] theorem writeReg_params (d : Reg) (v : Word) (s : State) :
    (writeReg d v s).params = s.params := by
  cases d <;> rfl

/-! ### Updates that leave the general registers alone -/

@[simp] theorem readReg_setZN (r : Word) (s : State) (q : Reg) :
    readReg (setZN r s) q = readReg s q := by
  cases q <;> rfl

@[simp] theorem setZN_r0 (r : Word) (s : State) : (setZN r s).r0 = s.r0 := rfl

@[simp] theorem setZN_r1 (r : Word) (s : State) : (setZN r s).r1 = s.r1 := rfl

@[simp] theorem setZN_r2 (r : Word) (s : State) : (setZN r s).r2 = s.r2 := rfl

@[simp] theorem setZN_r3 (r : Word) (s : State) : (setZN r s).r3 = s.r3 := rfl

@[simp] theorem setZN_pc (r : Word) (s : State) : (setZN r s).pc = s.pc := rfl

@[simp] theorem setZN_ir (r : Word) (s : State) : (setZN r s).ir = s.ir := rfl

@[simp] theorem setZN_z (r : Word) (s : State) : (setZN r s).z = zeroFlag r := rfl

@[simp] theorem setZN_n (r : Word) (s : State) : (setZN r s).n = negativeFlag r := rfl

@[simp] theorem setZN_runState (r : Word) (s : State) : (setZN r s).runState = s.runState := rfl

@[simp] theorem setZN_steps (r : Word) (s : State) : (setZN r s).steps = s.steps := rfl

@[simp] theorem setZN_mem (r : Word) (s : State) : (setZN r s).mem = s.mem := rfl

@[simp] theorem setZN_history (r : Word) (s : State) : (setZN r s).history = s.history := rfl

@[simp] theorem setZN_params (r : Word) (s : State) : (setZN r s).params = s.params := rfl

@[simp] theorem readReg_countStep (s : State) (q : Reg) :
    readReg (countStep s) q = readReg s q := by
  cases q <;> rfl

@[simp] theorem countStep_r0 (s : State) : (countStep s).r0 = s.r0 := rfl

@[simp] theorem countStep_r1 (s : State) : (countStep s).r1 = s.r1 := rfl

@[simp] theorem countStep_r2 (s : State) : (countStep s).r2 = s.r2 := rfl

@[simp] theorem countStep_r3 (s : State) : (countStep s).r3 = s.r3 := rfl

@[simp] theorem countStep_pc (s : State) : (countStep s).pc = s.pc := rfl

@[simp] theorem countStep_ir (s : State) : (countStep s).ir = s.ir := rfl

@[simp] theorem countStep_z (s : State) : (countStep s).z = s.z := rfl

@[simp] theorem countStep_n (s : State) : (countStep s).n = s.n := rfl

@[simp] theorem countStep_runState (s : State) : (countStep s).runState = s.runState := rfl

@[simp] theorem countStep_steps (s : State) : (countStep s).steps = s.steps + 1 := rfl

@[simp] theorem countStep_mem (s : State) : (countStep s).mem = s.mem := rfl

@[simp] theorem countStep_history (s : State) : (countStep s).history = s.history := rfl

@[simp] theorem countStep_params (s : State) : (countStep s).params = s.params := rfl

@[simp] theorem readReg_latchFetched (w : Word) (s : State) (q : Reg) :
    readReg (latchFetched w s) q = readReg s q := by
  cases q <;> rfl

@[simp] theorem latchFetched_r0 (w : Word) (s : State) : (latchFetched w s).r0 = s.r0 := rfl

@[simp] theorem latchFetched_r1 (w : Word) (s : State) : (latchFetched w s).r1 = s.r1 := rfl

@[simp] theorem latchFetched_r2 (w : Word) (s : State) : (latchFetched w s).r2 = s.r2 := rfl

@[simp] theorem latchFetched_r3 (w : Word) (s : State) : (latchFetched w s).r3 = s.r3 := rfl

@[simp] theorem latchFetched_pc (w : Word) (s : State) : (latchFetched w s).pc = s.pc + 1#16 := rfl

@[simp] theorem latchFetched_ir (w : Word) (s : State) : (latchFetched w s).ir = w := rfl

@[simp] theorem latchFetched_z (w : Word) (s : State) : (latchFetched w s).z = s.z := rfl

@[simp] theorem latchFetched_n (w : Word) (s : State) : (latchFetched w s).n = s.n := rfl

@[simp] theorem latchFetched_runState (w : Word) (s : State) : (latchFetched w s).runState = s.runState := rfl

@[simp] theorem latchFetched_steps (w : Word) (s : State) : (latchFetched w s).steps = s.steps := rfl

@[simp] theorem latchFetched_mem (w : Word) (s : State) : (latchFetched w s).mem = s.mem := rfl

@[simp] theorem latchFetched_history (w : Word) (s : State) : (latchFetched w s).history = s.history := rfl

@[simp] theorem latchFetched_params (w : Word) (s : State) : (latchFetched w s).params = s.params := rfl

@[simp] theorem readReg_setPc (t : Word) (s : State) (q : Reg) :
    readReg (setPc t s) q = readReg s q := by
  cases q <;> rfl

@[simp] theorem setPc_r0 (t : Word) (s : State) : (setPc t s).r0 = s.r0 := rfl

@[simp] theorem setPc_r1 (t : Word) (s : State) : (setPc t s).r1 = s.r1 := rfl

@[simp] theorem setPc_r2 (t : Word) (s : State) : (setPc t s).r2 = s.r2 := rfl

@[simp] theorem setPc_r3 (t : Word) (s : State) : (setPc t s).r3 = s.r3 := rfl

@[simp] theorem setPc_pc (t : Word) (s : State) : (setPc t s).pc = t := rfl

@[simp] theorem setPc_ir (t : Word) (s : State) : (setPc t s).ir = s.ir := rfl

@[simp] theorem setPc_z (t : Word) (s : State) : (setPc t s).z = s.z := rfl

@[simp] theorem setPc_n (t : Word) (s : State) : (setPc t s).n = s.n := rfl

@[simp] theorem setPc_runState (t : Word) (s : State) : (setPc t s).runState = s.runState := rfl

@[simp] theorem setPc_steps (t : Word) (s : State) : (setPc t s).steps = s.steps := rfl

@[simp] theorem setPc_mem (t : Word) (s : State) : (setPc t s).mem = s.mem := rfl

@[simp] theorem setPc_history (t : Word) (s : State) : (setPc t s).history = s.history := rfl

@[simp] theorem setPc_params (t : Word) (s : State) : (setPc t s).params = s.params := rfl

@[simp] theorem readReg_setRunState (r : RunState) (s : State) (q : Reg) :
    readReg (setRunState r s) q = readReg s q := by
  cases q <;> rfl

@[simp] theorem setRunState_r0 (r : RunState) (s : State) : (setRunState r s).r0 = s.r0 := rfl

@[simp] theorem setRunState_r1 (r : RunState) (s : State) : (setRunState r s).r1 = s.r1 := rfl

@[simp] theorem setRunState_r2 (r : RunState) (s : State) : (setRunState r s).r2 = s.r2 := rfl

@[simp] theorem setRunState_r3 (r : RunState) (s : State) : (setRunState r s).r3 = s.r3 := rfl

@[simp] theorem setRunState_pc (r : RunState) (s : State) : (setRunState r s).pc = s.pc := rfl

@[simp] theorem setRunState_ir (r : RunState) (s : State) : (setRunState r s).ir = s.ir := rfl

@[simp] theorem setRunState_z (r : RunState) (s : State) : (setRunState r s).z = s.z := rfl

@[simp] theorem setRunState_n (r : RunState) (s : State) : (setRunState r s).n = s.n := rfl

@[simp] theorem setRunState_runState (r : RunState) (s : State) : (setRunState r s).runState = r := rfl

@[simp] theorem setRunState_steps (r : RunState) (s : State) : (setRunState r s).steps = s.steps := rfl

@[simp] theorem setRunState_mem (r : RunState) (s : State) : (setRunState r s).mem = s.mem := rfl

@[simp] theorem setRunState_history (r : RunState) (s : State) : (setRunState r s).history = s.history := rfl

@[simp] theorem setRunState_params (r : RunState) (s : State) : (setRunState r s).params = s.params := rfl

@[simp] theorem readReg_setMem (m : Memory) (s : State) (q : Reg) :
    readReg (setMem m s) q = readReg s q := by
  cases q <;> rfl

@[simp] theorem setMem_r0 (m : Memory) (s : State) : (setMem m s).r0 = s.r0 := rfl

@[simp] theorem setMem_r1 (m : Memory) (s : State) : (setMem m s).r1 = s.r1 := rfl

@[simp] theorem setMem_r2 (m : Memory) (s : State) : (setMem m s).r2 = s.r2 := rfl

@[simp] theorem setMem_r3 (m : Memory) (s : State) : (setMem m s).r3 = s.r3 := rfl

@[simp] theorem setMem_pc (m : Memory) (s : State) : (setMem m s).pc = s.pc := rfl

@[simp] theorem setMem_ir (m : Memory) (s : State) : (setMem m s).ir = s.ir := rfl

@[simp] theorem setMem_z (m : Memory) (s : State) : (setMem m s).z = s.z := rfl

@[simp] theorem setMem_n (m : Memory) (s : State) : (setMem m s).n = s.n := rfl

@[simp] theorem setMem_runState (m : Memory) (s : State) : (setMem m s).runState = s.runState := rfl

@[simp] theorem setMem_steps (m : Memory) (s : State) : (setMem m s).steps = s.steps := rfl

@[simp] theorem setMem_mem (m : Memory) (s : State) : (setMem m s).mem = m := rfl

@[simp] theorem setMem_history (m : Memory) (s : State) : (setMem m s).history = s.history := rfl

@[simp] theorem setMem_params (m : Memory) (s : State) : (setMem m s).params = s.params := rfl

@[simp] theorem readReg_addEvent (e : IoEvent) (s : State) (q : Reg) :
    readReg (addEvent e s) q = readReg s q := by
  cases q <;> rfl

@[simp] theorem addEvent_r0 (e : IoEvent) (s : State) : (addEvent e s).r0 = s.r0 := rfl

@[simp] theorem addEvent_r1 (e : IoEvent) (s : State) : (addEvent e s).r1 = s.r1 := rfl

@[simp] theorem addEvent_r2 (e : IoEvent) (s : State) : (addEvent e s).r2 = s.r2 := rfl

@[simp] theorem addEvent_r3 (e : IoEvent) (s : State) : (addEvent e s).r3 = s.r3 := rfl

@[simp] theorem addEvent_pc (e : IoEvent) (s : State) : (addEvent e s).pc = s.pc := rfl

@[simp] theorem addEvent_ir (e : IoEvent) (s : State) : (addEvent e s).ir = s.ir := rfl

@[simp] theorem addEvent_z (e : IoEvent) (s : State) : (addEvent e s).z = s.z := rfl

@[simp] theorem addEvent_n (e : IoEvent) (s : State) : (addEvent e s).n = s.n := rfl

@[simp] theorem addEvent_runState (e : IoEvent) (s : State) : (addEvent e s).runState = s.runState := rfl

@[simp] theorem addEvent_steps (e : IoEvent) (s : State) : (addEvent e s).steps = s.steps := rfl

@[simp] theorem addEvent_mem (e : IoEvent) (s : State) : (addEvent e s).mem = s.mem := rfl

@[simp] theorem addEvent_history (e : IoEvent) (s : State) : (addEvent e s).history = s.history ++ [e] := rfl

@[simp] theorem addEvent_params (e : IoEvent) (s : State) : (addEvent e s).params = s.params := rfl

end Sys2Proof.Machine
end

