-- ==== Sys2Proof/Laws/Ops.lean ====
section
/-! SUPPORT. What each shared operation can do, said once. -/

namespace Sys2Proof.Machine

/-! ### Register fields -/

@[simp] theorem regOfField_fieldOfReg (r : Reg) : regOfField (fieldOfReg r) = some r := by
  cases r <;> rfl

/-- A field names the register whose number it holds, and no other. -/
theorem regOfField_eq_some_iff (f : Nibble) (r : Reg) : regOfField f = some r ↔ f = fieldOfReg r := by
  revert f; cases r <;> decide

/-- A field names no register exactly when it holds 4 to 15. -/
theorem regOfField_eq_none_iff (f : Nibble) : regOfField f = none ↔ 4 ≤ f.toNat := by
  revert f; decide

theorem namesReg_eq_isSome (f : Nibble) : namesReg f = (regOfField f).isSome := by
  revert f; decide

/-! ### Validation and the end of a cycle -/

@[simp] theorem withReg_fieldOfReg (r : Reg) (s : State) (rule : Reg → Host.Outcome State Fault Refusal) :
    withReg (fieldOfReg r) s rule = rule r := by
  simp [withReg]

theorem withReg_invalid {f : Nibble} (h : 4 ≤ f.toNat) (s : State)
    (rule : Reg → Host.Outcome State Fault Refusal) :
    withReg f s rule = .next (setRunState (.faulted .invalidOpcode) s) := by
  rw [withReg, (regOfField_eq_none_iff f).2 h]; rfl

/-- Validation either hands a register to the rule or raises InvalidOpcode. -/
theorem withReg_cases (f : Nibble) (s : State) (rule : Reg → Host.Outcome State Fault Refusal) :
    (∃ r, f = fieldOfReg r ∧ withReg f s rule = rule r)
      ∨ (4 ≤ f.toNat ∧ withReg f s rule = .next (setRunState (.faulted .invalidOpcode) s)) := by
  cases h : regOfField f with
  | some r =>
    have e := (regOfField_eq_some_iff f r).1 h
    exact .inl ⟨r, e, by rw [e, withReg_fieldOfReg]⟩
  | none =>
    have e := (regOfField_eq_none_iff f).1 h
    exact .inr ⟨e, withReg_invalid e s rule⟩

/-- Two fields: both name registers, or one of them raises InvalidOpcode. -/
theorem withReg_withReg_cases (f g : Nibble) (s : State)
    (rule : Reg → Reg → Host.Outcome State Fault Refusal) :
    (∃ d r, f = fieldOfReg d ∧ g = fieldOfReg r
        ∧ (withReg f s fun d => withReg g s fun r => rule d r) = rule d r)
      ∨ ((4 ≤ f.toNat ∨ 4 ≤ g.toNat)
        ∧ (withReg f s fun d => withReg g s fun r => rule d r)
          = .next (setRunState (.faulted .invalidOpcode) s)) := by
  rcases withReg_cases f s (fun d => withReg g s fun r => rule d r) with ⟨d, hd, e⟩ | ⟨h, e⟩
  · rcases withReg_cases g s (fun r => rule d r) with ⟨r, hr, e'⟩ | ⟨h, e'⟩
    · exact .inl ⟨d, r, hd, hr, by rw [e, e']⟩
    · exact .inr ⟨.inr h, by rw [e, e']⟩
  · exact .inr ⟨.inl h, e⟩

@[simp] theorem nextState_cont : nextState .cont = .running := rfl

@[simp] theorem nextState_halt : nextState .halt = .halted := rfl

@[simp] theorem nextState_fault (k : Fault) : nextState (.fault k) = .faulted k := rfl

theorem endCycle_eq (o : StepOutcome) (s : State) :
    endCycle o s = .next (setRunState (nextState o) s) := rfl

theorem raiseFault_eq (k : Fault) (s : State) :
    raiseFault k s = .next (setRunState (.faulted k) s) := rfl

/-! ### Addresses -/

theorem inBounds_iff (p : Params) (a : Nat) : inBounds p a = true ↔ a < p.memSize := by
  simp [inBounds]

theorem inBounds_false_iff (p : Params) (a : Nat) : inBounds p a = false ↔ p.memSize ≤ a := by
  simp [inBounds]

theorem inRam_iff (p : Params) (a : Nat) :
    inRam p a = true ↔ inBounds p a = true ∧ inIo p a = false := by
  simp [inRam]

/-- A RAM address, an I/O address or an address outside memory: each address is exactly one. -/
theorem region_cases (p : Params) (a : Nat) :
    (inBounds p a = true ∧ inIo p a = false) ∨ (inBounds p a = true ∧ inIo p a = true)
      ∨ inBounds p a = false := by
  cases inBounds p a <;> cases inIo p a <;> simp

/-! ### The access primitives -/

theorem memRead_ram {a : Word} {s : State} (hb : inBounds s.params a.toNat = true)
    (hi : inIo s.params a.toNat = false) :
    memRead a s = some (readStorage s.mem a.toNat, s) := by
  simp [memRead, hb, hi]

theorem memRead_io {a : Word} {s : State} (hb : inBounds s.params a.toNat = true)
    (hi : inIo s.params a.toNat = true) :
    memRead a s = some (Config.input s.params.inputSource s.history a,
      addEvent (.ioRead a (Config.input s.params.inputSource s.history a)) s) := by
  simp [memRead, hb, hi]

theorem memRead_oob {a : Word} {s : State} (hb : inBounds s.params a.toNat = false) :
    memRead a s = none := by
  simp [memRead, hb]

theorem memWrite_ram {a : Word} {s : State} (v : Word) (hb : inBounds s.params a.toNat = true)
    (hi : inIo s.params a.toNat = false) :
    memWrite a v s = some (setMem (writeStorage a.toNat v s.mem) s) := by
  simp [memWrite, hb, hi]

theorem memWrite_io {a : Word} {s : State} (v : Word) (hb : inBounds s.params a.toNat = true)
    (hi : inIo s.params a.toNat = true) :
    memWrite a v s = some (addEvent (.ioWrite a v) s) := by
  simp [memWrite, hb, hi]

theorem memWrite_oob {a : Word} {s : State} (v : Word) (hb : inBounds s.params a.toNat = false) :
    memWrite a v s = none := by
  simp [memWrite, hb]

/-- A fetch answers a word exactly in the RAM region, and that word is the storage's. -/
theorem fetchRead_eq_some_iff (a : Word) (s : State) (w : Word) :
    fetchRead a s = some w ↔ inRam s.params a.toNat = true ∧ readStorage s.mem a.toNat = w := by
  rcases region_cases s.params a.toNat with ⟨hb, hi⟩ | ⟨hb, hi⟩ | hb
  · simp [fetchRead, inRam, hb, hi]
  · simp [fetchRead, inRam, hb, hi]
  · simp [fetchRead, inRam, hb]

theorem fetchRead_eq_none_iff (a : Word) (s : State) :
    fetchRead a s = none ↔ inRam s.params a.toNat = false := by
  rcases region_cases s.params a.toNat with ⟨hb, hi⟩ | ⟨hb, hi⟩ | hb
  · simp [fetchRead, inRam, hb, hi]
  · simp [fetchRead, inRam, hb, hi]
  · simp [fetchRead, inRam, hb]

/-- A fetch depends on the parameters and the storage alone. -/
theorem fetchRead_congr {s t : State} (a : Word) (hp : t.params = s.params) (hm : t.mem = s.mem) :
    fetchRead a t = fetchRead a s := by
  simp only [fetchRead, hp, hm]

/-! ### The shared meanings -/

/-- ADD to XOR: the result written and the flags from it, or InvalidOpcode. -/
theorem aluWrite_cases (f : Word → Word → Word) (rd rs : Nibble) (s : State) :
    (∃ d r, rd = fieldOfReg d ∧ rs = fieldOfReg r
        ∧ aluWrite f rd rs s = .next (setRunState .running (setZN (f (readReg s d) (readReg s r))
            (writeReg d (f (readReg s d) (readReg s r)) s))))
      ∨ ((4 ≤ rd.toNat ∨ 4 ≤ rs.toNat)
        ∧ aluWrite f rd rs s = .next (setRunState (.faulted .invalidOpcode) s)) :=
  withReg_withReg_cases rd rs s _

/-- CMP: the flags from the result, or InvalidOpcode. -/
theorem aluCompare_cases (f : Word → Word → Word) (rd rs : Nibble) (s : State) :
    (∃ d r, rd = fieldOfReg d ∧ rs = fieldOfReg r
        ∧ aluCompare f rd rs s
          = .next (setRunState .running (setZN (f (readReg s d) (readReg s r)) s)))
      ∨ ((4 ≤ rd.toNat ∨ 4 ≤ rs.toNat)
        ∧ aluCompare f rd rs s = .next (setRunState (.faulted .invalidOpcode) s)) :=
  withReg_withReg_cases rd rs s _

theorem execLoadImm_cases (rd imm : Nibble) (s : State) :
    (∃ d, rd = fieldOfReg d
        ∧ execLoadImm rd imm s = .next (setRunState .running (writeReg d (sext16 imm) s)))
      ∨ (4 ≤ rd.toNat
        ∧ execLoadImm rd imm s = .next (setRunState (.faulted .invalidOpcode) s)) :=
  withReg_cases rd s _

theorem execMove_cases (rd rs : Nibble) (s : State) :
    (∃ d r, rd = fieldOfReg d ∧ rs = fieldOfReg r
        ∧ execMove rd rs s = .next (setRunState .running (writeReg d (readReg s r) s)))
      ∨ ((4 ≤ rd.toNat ∨ 4 ≤ rs.toNat)
        ∧ execMove rd rs s = .next (setRunState (.faulted .invalidOpcode) s)) :=
  withReg_withReg_cases rd rs s _

/-- A jump: taken, not taken, or InvalidOpcode. -/
theorem jumpWhen_cases (taken : Bool) (rs imm : Nibble) (s : State) :
    (∃ r, rs = fieldOfReg r ∧ taken = true
        ∧ jumpWhen taken rs imm s
          = .next (setRunState .running (setPc (baseOffset (readReg s r) imm) s)))
      ∨ (∃ r, rs = fieldOfReg r ∧ taken = false
        ∧ jumpWhen taken rs imm s = .next (setRunState .running s))
      ∨ (4 ≤ rs.toNat
        ∧ jumpWhen taken rs imm s = .next (setRunState (.faulted .invalidOpcode) s)) := by
  rcases withReg_cases rs s
    (fun r => endCycle .cont (if taken then setPc (baseOffset (readReg s r) imm) s else s))
    with ⟨r, hr, e⟩ | ⟨h, e⟩
  · cases taken
    · exact .inr (.inl ⟨r, hr, rfl, e⟩)
    · exact .inl ⟨r, hr, rfl, e⟩
  · exact .inr (.inr ⟨h, e⟩)

/-- LOAD: from RAM, from the input source, out of bounds, or InvalidOpcode. -/
theorem execLoad_cases (rd rs imm : Nibble) (s : State) :
    (∃ d r, rd = fieldOfReg d ∧ rs = fieldOfReg r
        ∧ inBounds s.params (baseOffset (readReg s r) imm).toNat = true
        ∧ inIo s.params (baseOffset (readReg s r) imm).toNat = false
        ∧ execLoad rd rs imm s
          = .next (setRunState .running
              (writeReg d (readStorage s.mem (baseOffset (readReg s r) imm).toNat) s)))
      ∨ (∃ d r v, rd = fieldOfReg d ∧ rs = fieldOfReg r
        ∧ inBounds s.params (baseOffset (readReg s r) imm).toNat = true
        ∧ inIo s.params (baseOffset (readReg s r) imm).toNat = true
        ∧ v = Config.input s.params.inputSource s.history (baseOffset (readReg s r) imm)
        ∧ execLoad rd rs imm s
          = .next (setRunState .running
              (writeReg d v (addEvent (.ioRead (baseOffset (readReg s r) imm) v) s))))
      ∨ (∃ d r, rd = fieldOfReg d ∧ rs = fieldOfReg r
        ∧ inBounds s.params (baseOffset (readReg s r) imm).toNat = false
        ∧ execLoad rd rs imm s = .next (setRunState (.faulted .memoryOutOfBounds) s))
      ∨ ((4 ≤ rd.toNat ∨ 4 ≤ rs.toNat)
        ∧ execLoad rd rs imm s = .next (setRunState (.faulted .invalidOpcode) s)) := by
  rcases withReg_withReg_cases rd rs s (fun d r =>
    match memRead (baseOffset (readReg s r) imm) s with
    | some (v, s') => endCycle .cont (writeReg d v s')
    | none => raiseFault .memoryOutOfBounds s) with ⟨d, r, hd, hr, e⟩ | h
  · rcases region_cases s.params (baseOffset (readReg s r) imm).toNat with ⟨hb, hi⟩ | ⟨hb, hi⟩ | hb
    · refine .inl ⟨d, r, hd, hr, hb, hi, e.trans ?_⟩
      rw [memRead_ram hb hi]; rfl
    · refine .inr (.inl ⟨d, r, _, hd, hr, hb, hi, rfl, e.trans ?_⟩)
      rw [memRead_io hb hi]; rfl
    · refine .inr (.inr (.inl ⟨d, r, hd, hr, hb, e.trans ?_⟩))
      rw [memRead_oob hb]; rfl
  · exact .inr (.inr (.inr h))

/-- STORE: to RAM, to the output sink, out of bounds, or InvalidOpcode. -/
theorem execStore_cases (rd rs imm : Nibble) (s : State) :
    (∃ d r, rd = fieldOfReg d ∧ rs = fieldOfReg r
        ∧ inBounds s.params (baseOffset (readReg s r) imm).toNat = true
        ∧ inIo s.params (baseOffset (readReg s r) imm).toNat = false
        ∧ execStore rd rs imm s
          = .next (setRunState .running (setMem
              (writeStorage (baseOffset (readReg s r) imm).toNat (readReg s d) s.mem) s)))
      ∨ (∃ d r, rd = fieldOfReg d ∧ rs = fieldOfReg r
        ∧ inBounds s.params (baseOffset (readReg s r) imm).toNat = true
        ∧ inIo s.params (baseOffset (readReg s r) imm).toNat = true
        ∧ execStore rd rs imm s
          = .next (setRunState .running
              (addEvent (.ioWrite (baseOffset (readReg s r) imm) (readReg s d)) s)))
      ∨ (∃ d r, rd = fieldOfReg d ∧ rs = fieldOfReg r
        ∧ inBounds s.params (baseOffset (readReg s r) imm).toNat = false
        ∧ execStore rd rs imm s = .next (setRunState (.faulted .memoryOutOfBounds) s))
      ∨ ((4 ≤ rd.toNat ∨ 4 ≤ rs.toNat)
        ∧ execStore rd rs imm s = .next (setRunState (.faulted .invalidOpcode) s)) := by
  rcases withReg_withReg_cases rd rs s (fun d r =>
    match memWrite (baseOffset (readReg s r) imm) (readReg s d) s with
    | some s' => endCycle .cont s'
    | none => raiseFault .memoryOutOfBounds s) with ⟨d, r, hd, hr, e⟩ | h
  · rcases region_cases s.params (baseOffset (readReg s r) imm).toNat with ⟨hb, hi⟩ | ⟨hb, hi⟩ | hb
    · refine .inl ⟨d, r, hd, hr, hb, hi, e.trans ?_⟩
      rw [memWrite_ram _ hb hi]; rfl
    · refine .inr (.inl ⟨d, r, hd, hr, hb, hi, e.trans ?_⟩)
      rw [memWrite_io _ hb hi]; rfl
    · refine .inr (.inr (.inl ⟨d, r, hd, hr, hb, e.trans ?_⟩))
      rw [memWrite_oob _ hb]; rfl
  · exact .inr (.inr (.inr h))

/-! ### The front of a cycle -/

/-- Whatever the state, the front of a cycle does one of four things, and each condition excludes the others. -/
theorem cycleFront_cases (s : State) :
    (s.runState ≠ .running ∧ cycleFront s = .over s)
      ∨ (s.runState = .running ∧ stepLimitReached s = true
        ∧ cycleFront s = .over (setRunState (.faulted .stepLimitExceeded) s))
      ∨ (s.runState = .running ∧ stepLimitReached s = false ∧ fetchRead s.pc s = none
        ∧ cycleFront s = .over (setRunState (.faulted .memoryOutOfBounds) (countStep s)))
      ∨ (∃ w, s.runState = .running ∧ stepLimitReached s = false ∧ fetchRead s.pc s = some w
        ∧ cycleFront s = .execute (decode w) (latchFetched w (countStep s))) := by
  have hf : fetchRead s.pc (countStep s) = fetchRead s.pc s := fetchRead_congr _ rfl rfl
  cases hr : s.runState with
  | halted => exact .inl ⟨by simp, by simp [cycleFront, hr]⟩
  | faulted k => exact .inl ⟨by simp, by simp [cycleFront, hr]⟩
  | running =>
    cases hl : stepLimitReached s with
    | true => exact .inr (.inl ⟨rfl, rfl, by simp [cycleFront, hr, hl]⟩)
    | false =>
      cases hw : fetchRead s.pc s with
      | none =>
        exact .inr (.inr (.inl ⟨rfl, rfl, rfl, by simp [cycleFront, hr, hl, hf, hw]⟩))
      | some w =>
        exact .inr (.inr (.inr ⟨w, rfl, rfl, rfl, by simp [cycleFront, hr, hl, hf, hw]⟩))

theorem stepLimitReached_iff (s : State) :
    stepLimitReached s = true ↔ ∃ limit, s.params.stepLimit = some limit ∧ limit ≤ s.steps := by
  unfold stepLimitReached
  cases s.params.stepLimit <;> simp

/-! ### The host's load -/

theorem clearOfIo_iff (p : Params) (a n : Nat) :
    clearOfIo p a n = true ↔ ∀ j, j < n → inIo p (a + j) = false := by
  induction n generalizing a with
  | zero => simp [clearOfIo]
  | succ k ih =>
    simp only [clearOfIo, Bool.and_eq_true, Bool.not_eq_true', ih]
    constructor
    · rintro ⟨h0, h⟩ j hj
      cases j with
      | zero => exact h0
      | succ i => rw [show a + (i + 1) = a + 1 + i by omega]; exact h i (by omega)
    · intro h
      refine ⟨h 0 (by omega), fun j hj => ?_⟩
      rw [show a + 1 + j = a + (j + 1) by omega]; exact h (j + 1) (by omega)

theorem readCell_writeWords_outside {k a : Nat} (ws : List Word) (m : Memory)
    (h : k / 2 < a ∨ a + ws.length ≤ k / 2) : readCell (writeWords a ws m) k = readCell m k := by
  induction ws generalizing a m with
  | nil => rfl
  | cons w rest ih =>
    rw [List.length_cons] at h
    rw [writeWords, ih _ (by omega), readCell_writeStorage_ne (by omega)]

theorem readStorage_writeWords_outside {b a : Nat} (ws : List Word) (m : Memory)
    (h : b < a ∨ a + ws.length ≤ b) : readStorage (writeWords a ws m) b = readStorage m b :=
  readStorage_congr fun k hk => readCell_writeWords_outside ws m (by omega)

theorem readStorage_writeWords_inside (a : Nat) (ws : List Word) (m : Memory) (j : Nat)
    (h : j < ws.length) : readStorage (writeWords a ws m) (a + j) = ws[j] := by
  induction ws generalizing a m j with
  | nil => simp at h
  | cons w rest ih =>
    cases j with
    | zero =>
      rw [writeWords, readStorage_writeWords_outside _ _ (by omega), Nat.add_zero,
        readStorage_writeStorage_same]
      rfl
    | succ i =>
      rw [writeWords, show a + (i + 1) = a + 1 + i by omega, ih _ _ _ (by simpa using h)]
      rfl

/-- A load is accepted with the words written, or refused. -/
theorem hostLoad_eq_some_iff (a : Word) (ws : List Word) (s t : State) :
    hostLoad a ws s = some t ↔
      a.toNat + ws.length ≤ s.params.memSize ∧ clearOfIo s.params a.toNat ws.length = true
        ∧ t = setMem (writeWords a.toNat ws s.mem) s := by
  unfold hostLoad
  split
  · rename_i h
    cases clearOfIo s.params a.toNat ws.length <;> simp [h, eq_comm]
  · rename_i h; simp [h]

end Sys2Proof.Machine
end

