-- ==== Sys2Proof/Laws/Exec.lean ====
section
/-! SUPPORT. What executing any instruction can do, said once, for the statements about all instructions. -/

namespace Sys2Proof.Machine

@[simp] theorem namesReg_fieldOfReg (r : Reg) : namesReg (fieldOfReg r) = true := by
  cases r <;> decide

theorem namesReg_eq_false_iff (f : Nibble) : namesReg f = false ↔ 4 ≤ f.toNat := by
  revert f; decide

theorem fieldOfReg_injective {a b : Reg} (h : fieldOfReg a = fieldOfReg b) : a = b := by
  revert h; cases a <;> cases b <;> decide

/-- The effects an instruction can have, each with the form of the instruction that has it. -/
inductive ExecEffect (i : Instr) (s : State) : State → Prop
  /-- Validation refused a field, or the opcode is the reserved one. -/
  | invalid (h : i.wellFormed = false) : ExecEffect i s (setRunState (.faulted .invalidOpcode) s)
  /-- NOP. -/
  | nop (h : i = .nop) : ExecEffect i s (setRunState .running s)
  /-- HALT. -/
  | halt (h : i = .halt) : ExecEffect i s (setRunState .halted s)
  /-- LOAD_IMM. -/
  | immediate (d : Reg) (imm : Nibble) (h : i = .loadImm (fieldOfReg d) imm) :
      ExecEffect i s (setRunState .running (writeReg d (sext16 imm) s))
  /-- MOVE. -/
  | move (d r : Reg) (h : i = .move (fieldOfReg d) (fieldOfReg r)) :
      ExecEffect i s (setRunState .running (writeReg d (readReg s r) s))
  /-- LOAD from RAM. -/
  | loadRam (d r : Reg) (imm : Nibble) (h : i = .load (fieldOfReg d) (fieldOfReg r) imm)
      (hb : inBounds s.params (baseOffset (readReg s r) imm).toNat = true)
      (hi : inIo s.params (baseOffset (readReg s r) imm).toNat = false) :
      ExecEffect i s (setRunState .running
        (writeReg d (readStorage s.mem (baseOffset (readReg s r) imm).toNat) s))
  /-- LOAD from the I/O region. -/
  | loadIo (d r : Reg) (imm : Nibble) (v : Word) (h : i = .load (fieldOfReg d) (fieldOfReg r) imm)
      (hb : inBounds s.params (baseOffset (readReg s r) imm).toNat = true)
      (hi : inIo s.params (baseOffset (readReg s r) imm).toNat = true)
      (hv : v = Config.input s.params.inputSource s.history (baseOffset (readReg s r) imm)) :
      ExecEffect i s (setRunState .running
        (writeReg d v (addEvent (.ioRead (baseOffset (readReg s r) imm) v) s)))
  /-- STORE to RAM. -/
  | storeRam (d r : Reg) (imm : Nibble) (h : i = .store (fieldOfReg d) (fieldOfReg r) imm)
      (hb : inBounds s.params (baseOffset (readReg s r) imm).toNat = true)
      (hi : inIo s.params (baseOffset (readReg s r) imm).toNat = false) :
      ExecEffect i s (setRunState .running
        (setMem (writeStorage (baseOffset (readReg s r) imm).toNat (readReg s d) s.mem) s))
  /-- STORE to the I/O region. -/
  | storeIo (d r : Reg) (imm : Nibble) (h : i = .store (fieldOfReg d) (fieldOfReg r) imm)
      (hb : inBounds s.params (baseOffset (readReg s r) imm).toNat = true)
      (hi : inIo s.params (baseOffset (readReg s r) imm).toNat = true) :
      ExecEffect i s (setRunState .running
        (addEvent (.ioWrite (baseOffset (readReg s r) imm) (readReg s d)) s))
  /-- A LOAD or STORE outside memory. -/
  | outOfBounds (d r : Reg) (imm : Nibble)
      (h : i = .load (fieldOfReg d) (fieldOfReg r) imm
        ∨ i = .store (fieldOfReg d) (fieldOfReg r) imm)
      (hb : inBounds s.params (baseOffset (readReg s r) imm).toNat = false) :
      ExecEffect i s (setRunState (.faulted .memoryOutOfBounds) s)
  /-- ADD, SUB, AND, OR, XOR: the result written and the flags from it. -/
  | alu (d r : Reg) (f : Word → Word → Word) (hf : writesFlags i = true)
      (hw : i.wellFormed = true)
      (hr : flagResult i s = some (f (readReg s d) (readReg s r))) :
      ExecEffect i s (setRunState .running
        (setZN (f (readReg s d) (readReg s r)) (writeReg d (f (readReg s d) (readReg s r)) s)))
  /-- CMP: the flags alone. -/
  | compare (d r : Reg) (h : i = .cmp (fieldOfReg d) (fieldOfReg r)) :
      ExecEffect i s (setRunState .running (setZN (readReg s d - readReg s r) s))
  /-- A taken jump. -/
  | taken (r : Reg) (imm : Nibble)
      (h : i = .jump (fieldOfReg r) imm
        ∨ (i = .jumpIfZero (fieldOfReg r) imm ∧ s.z = true)
        ∨ (i = .jumpIfNotZero (fieldOfReg r) imm ∧ s.z = false)) :
      ExecEffect i s (setRunState .running (setPc (baseOffset (readReg s r) imm) s))
  /-- An untaken jump. -/
  | untaken (r : Reg) (imm : Nibble)
      (h : (i = .jumpIfZero (fieldOfReg r) imm ∧ s.z = false)
        ∨ (i = .jumpIfNotZero (fieldOfReg r) imm ∧ s.z = true)) :
      ExecEffect i s (setRunState .running s)

theorem two_fields_bad {rd rs : Nibble} (h : 4 ≤ rd.toNat ∨ 4 ≤ rs.toNat) :
    (namesReg rd && namesReg rs) = false := by
  rwa [Bool.and_eq_false_iff, namesReg_eq_false_iff, namesReg_eq_false_iff]

/-- One of the five that write a register from two. -/
theorem aluWrite_effect (i : Instr) (f : Word → Word → Word) (rd rs : Nibble) (s : State)
    (he : exec i s = aluWrite f rd rs s) (hf : writesFlags i = true)
    (hw : i.wellFormed = (namesReg rd && namesReg rs))
    (hr : flagResult i s = flagResult.aluOperands f rd rs s) :
    ∃ t, exec i s = .next t ∧ ExecEffect i s t := by
  rcases aluWrite_cases f rd rs s with ⟨d, r, rfl, rfl, e⟩ | ⟨h, e⟩
  · exact ⟨_, he.trans e, .alu d r f hf (by simp [hw])
      (by rw [hr]; simp [flagResult.aluOperands])⟩
  · exact ⟨_, he.trans e, .invalid (hw.trans (two_fields_bad h))⟩

/-- Executing an instruction answers a next state, by one of its effects. -/
theorem exec_effect (i : Instr) (s : State) : ∃ t, exec i s = .next t ∧ ExecEffect i s t := by
  cases i
  case reserved => exact ⟨_, rfl, .invalid rfl⟩
  case nop => exact ⟨_, rfl, .nop rfl⟩
  case halt => exact ⟨_, rfl, .halt rfl⟩
  case loadImm rd imm =>
    rcases execLoadImm_cases rd imm s with ⟨d, rfl, e⟩ | ⟨h, e⟩
    · exact ⟨_, e, .immediate d imm rfl⟩
    · exact ⟨_, e, .invalid ((namesReg_eq_false_iff rd).2 h)⟩
  case move rd rs =>
    rcases execMove_cases rd rs s with ⟨d, r, rfl, rfl, e⟩ | ⟨h, e⟩
    · exact ⟨_, e, .move d r rfl⟩
    · exact ⟨_, e, .invalid (two_fields_bad h)⟩
  case load rd rs imm =>
    rcases execLoad_cases rd rs imm s with ⟨d, r, rfl, rfl, hb, hi, e⟩
      | ⟨d, r, v, rfl, rfl, hb, hi, hv, e⟩ | ⟨d, r, rfl, rfl, hb, e⟩ | ⟨h, e⟩
    · exact ⟨_, e, .loadRam d r imm rfl hb hi⟩
    · exact ⟨_, e, .loadIo d r imm v rfl hb hi hv⟩
    · exact ⟨_, e, .outOfBounds d r imm (.inl rfl) hb⟩
    · exact ⟨_, e, .invalid (two_fields_bad h)⟩
  case store rd rs imm =>
    rcases execStore_cases rd rs imm s with ⟨d, r, rfl, rfl, hb, hi, e⟩
      | ⟨d, r, rfl, rfl, hb, hi, e⟩ | ⟨d, r, rfl, rfl, hb, e⟩ | ⟨h, e⟩
    · exact ⟨_, e, .storeRam d r imm rfl hb hi⟩
    · exact ⟨_, e, .storeIo d r imm rfl hb hi⟩
    · exact ⟨_, e, .outOfBounds d r imm (.inr rfl) hb⟩
    · exact ⟨_, e, .invalid (two_fields_bad h)⟩
  case add rd rs => exact aluWrite_effect _ _ rd rs s rfl rfl rfl rfl
  case sub rd rs => exact aluWrite_effect _ _ rd rs s rfl rfl rfl rfl
  case and rd rs => exact aluWrite_effect _ _ rd rs s rfl rfl rfl rfl
  case or rd rs => exact aluWrite_effect _ _ rd rs s rfl rfl rfl rfl
  case xor rd rs => exact aluWrite_effect _ _ rd rs s rfl rfl rfl rfl
  case cmp rd rs =>
    rcases aluCompare_cases (fun a b => a - b) rd rs s with ⟨d, r, rfl, rfl, e⟩ | ⟨h, e⟩
    · exact ⟨_, e, .compare d r rfl⟩
    · exact ⟨_, e, .invalid (two_fields_bad h)⟩
  case jump rs imm =>
    rcases jumpWhen_cases true rs imm s with ⟨r, rfl, _, e⟩ | ⟨_, _, hz, _⟩ | ⟨h, e⟩
    · exact ⟨_, e, .taken r imm (.inl rfl)⟩
    · cases hz
    · exact ⟨_, e, .invalid ((namesReg_eq_false_iff rs).2 h)⟩
  case jumpIfZero rs imm =>
    rcases jumpWhen_cases s.z rs imm s with ⟨r, rfl, hz, e⟩ | ⟨r, rfl, hz, e⟩ | ⟨h, e⟩
    · exact ⟨_, e, .taken r imm (.inr (.inl ⟨rfl, hz⟩))⟩
    · exact ⟨_, e, .untaken r imm (.inl ⟨rfl, hz⟩)⟩
    · exact ⟨_, e, .invalid ((namesReg_eq_false_iff rs).2 h)⟩
  case jumpIfNotZero rs imm =>
    rcases jumpWhen_cases (!s.z) rs imm s with ⟨r, rfl, hz, e⟩ | ⟨r, rfl, hz, e⟩ | ⟨h, e⟩
    · exact ⟨_, e, .taken r imm (.inr (.inr ⟨rfl, by simpa using hz⟩))⟩
    · exact ⟨_, e, .untaken r imm (.inr ⟨rfl, by simpa using hz⟩)⟩
    · exact ⟨_, e, .invalid ((namesReg_eq_false_iff rs).2 h)⟩

/-- The effect behind an answer. -/
theorem effect_of_exec {i : Instr} {s t : State} (h : exec i s = .next t) : ExecEffect i s t := by
  obtain ⟨u, e, he⟩ := exec_effect i s
  rw [e] at h
  cases h
  exact he

end Sys2Proof.Machine
end

