-- ==== Sys2Proof/Laws/PerInstr.lean ====
section
/-! SUPPORT. Families of lemmas about every instruction as syntax, one lemma per constructor. -/

namespace Sys2Proof.Laws

/-- The canonical encoding of an instruction has its opcode's legality: validation of the encoded fields (R85) accepts them
exactly when the instruction is well-formed (R70). -/
def EncodedValid.Statement (i : Instr) : Prop := validFields (fieldsOfInstr i) = i.wellFormed

/-- The canonical encoding holds 0 in every field the instruction ignores (R74): clearing them again changes nothing. -/
def EncodedCanonical.Statement (i : Instr) : Prop :=
  canonicalFields (fieldsOfInstr i) = fieldsOfInstr i

theorem EncodedValid.reserved : EncodedValid.Statement (.reserved) := by
  simp [EncodedValid.Statement, validFields, fieldsOfInstr, Instr.wellFormed, shapeOfOp, Shape.usesRd, Shape.usesRs]

theorem EncodedValid.nop : EncodedValid.Statement (.nop) := by
  simp [EncodedValid.Statement, validFields, fieldsOfInstr, Instr.wellFormed, shapeOfOp, Shape.usesRd, Shape.usesRs]

theorem EncodedValid.halt : EncodedValid.Statement (.halt) := by
  simp [EncodedValid.Statement, validFields, fieldsOfInstr, Instr.wellFormed, shapeOfOp, Shape.usesRd, Shape.usesRs]

theorem EncodedValid.loadImm (rd imm : Nibble) : EncodedValid.Statement (.loadImm rd imm) := by
  simp [EncodedValid.Statement, validFields, fieldsOfInstr, Instr.wellFormed, shapeOfOp, Shape.usesRd, Shape.usesRs]

theorem EncodedValid.move (rd rs : Nibble) : EncodedValid.Statement (.move rd rs) := by
  simp [EncodedValid.Statement, validFields, fieldsOfInstr, Instr.wellFormed, shapeOfOp, Shape.usesRd, Shape.usesRs]

theorem EncodedValid.load (rd rs imm : Nibble) : EncodedValid.Statement (.load rd rs imm) := by
  simp [EncodedValid.Statement, validFields, fieldsOfInstr, Instr.wellFormed, shapeOfOp, Shape.usesRd, Shape.usesRs]

theorem EncodedValid.store (rd rs imm : Nibble) : EncodedValid.Statement (.store rd rs imm) := by
  simp [EncodedValid.Statement, validFields, fieldsOfInstr, Instr.wellFormed, shapeOfOp, Shape.usesRd, Shape.usesRs]

theorem EncodedValid.add (rd rs : Nibble) : EncodedValid.Statement (.add rd rs) := by
  simp [EncodedValid.Statement, validFields, fieldsOfInstr, Instr.wellFormed, shapeOfOp, Shape.usesRd, Shape.usesRs]

theorem EncodedValid.sub (rd rs : Nibble) : EncodedValid.Statement (.sub rd rs) := by
  simp [EncodedValid.Statement, validFields, fieldsOfInstr, Instr.wellFormed, shapeOfOp, Shape.usesRd, Shape.usesRs]

theorem EncodedValid.and (rd rs : Nibble) : EncodedValid.Statement (.and rd rs) := by
  simp [EncodedValid.Statement, validFields, fieldsOfInstr, Instr.wellFormed, shapeOfOp, Shape.usesRd, Shape.usesRs]

theorem EncodedValid.or (rd rs : Nibble) : EncodedValid.Statement (.or rd rs) := by
  simp [EncodedValid.Statement, validFields, fieldsOfInstr, Instr.wellFormed, shapeOfOp, Shape.usesRd, Shape.usesRs]

theorem EncodedValid.xor (rd rs : Nibble) : EncodedValid.Statement (.xor rd rs) := by
  simp [EncodedValid.Statement, validFields, fieldsOfInstr, Instr.wellFormed, shapeOfOp, Shape.usesRd, Shape.usesRs]

theorem EncodedValid.cmp (rd rs : Nibble) : EncodedValid.Statement (.cmp rd rs) := by
  simp [EncodedValid.Statement, validFields, fieldsOfInstr, Instr.wellFormed, shapeOfOp, Shape.usesRd, Shape.usesRs]

theorem EncodedValid.jump (rs imm : Nibble) : EncodedValid.Statement (.jump rs imm) := by
  simp [EncodedValid.Statement, validFields, fieldsOfInstr, Instr.wellFormed, shapeOfOp, Shape.usesRd, Shape.usesRs]

theorem EncodedValid.jumpIfZero (rs imm : Nibble) : EncodedValid.Statement (.jumpIfZero rs imm) := by
  simp [EncodedValid.Statement, validFields, fieldsOfInstr, Instr.wellFormed, shapeOfOp, Shape.usesRd, Shape.usesRs]

theorem EncodedValid.jumpIfNotZero (rs imm : Nibble) : EncodedValid.Statement (.jumpIfNotZero rs imm) := by
  simp [EncodedValid.Statement, validFields, fieldsOfInstr, Instr.wellFormed, shapeOfOp, Shape.usesRd, Shape.usesRs]

theorem EncodedCanonical.reserved : EncodedCanonical.Statement (.reserved) := rfl

theorem EncodedCanonical.nop : EncodedCanonical.Statement (.nop) := rfl

theorem EncodedCanonical.halt : EncodedCanonical.Statement (.halt) := rfl

theorem EncodedCanonical.loadImm (rd imm : Nibble) : EncodedCanonical.Statement (.loadImm rd imm) := rfl

theorem EncodedCanonical.move (rd rs : Nibble) : EncodedCanonical.Statement (.move rd rs) := rfl

theorem EncodedCanonical.load (rd rs imm : Nibble) : EncodedCanonical.Statement (.load rd rs imm) := rfl

theorem EncodedCanonical.store (rd rs imm : Nibble) : EncodedCanonical.Statement (.store rd rs imm) := rfl

theorem EncodedCanonical.add (rd rs : Nibble) : EncodedCanonical.Statement (.add rd rs) := rfl

theorem EncodedCanonical.sub (rd rs : Nibble) : EncodedCanonical.Statement (.sub rd rs) := rfl

theorem EncodedCanonical.and (rd rs : Nibble) : EncodedCanonical.Statement (.and rd rs) := rfl

theorem EncodedCanonical.or (rd rs : Nibble) : EncodedCanonical.Statement (.or rd rs) := rfl

theorem EncodedCanonical.xor (rd rs : Nibble) : EncodedCanonical.Statement (.xor rd rs) := rfl

theorem EncodedCanonical.cmp (rd rs : Nibble) : EncodedCanonical.Statement (.cmp rd rs) := rfl

theorem EncodedCanonical.jump (rs imm : Nibble) : EncodedCanonical.Statement (.jump rs imm) := rfl

theorem EncodedCanonical.jumpIfZero (rs imm : Nibble) : EncodedCanonical.Statement (.jumpIfZero rs imm) := rfl

theorem EncodedCanonical.jumpIfNotZero (rs imm : Nibble) : EncodedCanonical.Statement (.jumpIfNotZero rs imm) := rfl

end Sys2Proof.Laws
end

