-- ==== Sys2Proof/Laws/Run.lean ====
section
/-! SUPPORT. Running several steps: what one more step adds, through the host's `Host.Core.run` and the model's own
`run()`. -/

namespace Sys2Proof.Machine

theorem coreRun_zero (s : State) : Host.Core.run Sys2Proof.core 0 s = .next s := rfl

/-- Any core's run of one step and `k` more, where the step answers a next state. -/
theorem run_succ_of_next {M : Host.Core} {s t : M.State} (h : M.step s = .next t) (k : Nat) :
    M.run (k + 1) s = M.run k t := by
  simp only [Host.Core.run, h]

/-- The same of this core, its states under their own name. -/
theorem coreRun_succ_of_next {s t : State} (h : step s = .next t) (k : Nat) :
    Host.Core.run Sys2Proof.core (k + 1) s = Host.Core.run Sys2Proof.core k t :=
  run_succ_of_next (M := Sys2Proof.core) h k

theorem hostStep_of_next {s t : State} (h : step s = .next t) :
    hostStep s = some (outcomeOf t, t) := by
  simp [hostStep, h]

theorem nextState_outcomeOf (s : State) : nextState (outcomeOf s) = s.runState := by
  unfold outcomeOf
  cases s.runState <;> rfl

end Sys2Proof.Machine
end

