-- ==== Sys2Proof/Tests/Slice0.lean ====
section
/-! SUPPORT. The model's own tests: the well-formedness smoke, the decoding of words written out from the spec's
encodings, one-step checks whose expected values are the spec's vectors (95_test_vectors.md part 2), and for every statement
with hypotheses a concrete state that meets them. -/

namespace Sys2Proof.Tests

open Sys2Proof.Machine

/-! ### Well-formedness: a term that each check refuses (R70) -/

theorem test_wf_refuses_reserved : Instr.wellFormed .reserved = false := by decide
theorem test_wf_refuses_loadImm_rd : Instr.wellFormed (.loadImm 4#4 0#4) = false := by decide
theorem test_wf_refuses_move_rd : Instr.wellFormed (.move 4#4 0#4) = false := by decide
theorem test_wf_refuses_move_rs : Instr.wellFormed (.move 0#4 15#4) = false := by decide
theorem test_wf_refuses_load_rd : Instr.wellFormed (.load 4#4 0#4 0#4) = false := by decide
theorem test_wf_refuses_load_rs : Instr.wellFormed (.load 0#4 4#4 0#4) = false := by decide
theorem test_wf_refuses_store_rd : Instr.wellFormed (.store 8#4 0#4 0#4) = false := by decide
theorem test_wf_refuses_store_rs : Instr.wellFormed (.store 0#4 5#4 0#4) = false := by decide
theorem test_wf_refuses_add : Instr.wellFormed (.add 4#4 0#4) = false
    ∧ Instr.wellFormed (.add 0#4 4#4) = false := by decide
theorem test_wf_refuses_sub : Instr.wellFormed (.sub 4#4 0#4) = false
    ∧ Instr.wellFormed (.sub 0#4 4#4) = false := by decide
theorem test_wf_refuses_and : Instr.wellFormed (.and 4#4 0#4) = false
    ∧ Instr.wellFormed (.and 0#4 4#4) = false := by decide
theorem test_wf_refuses_or : Instr.wellFormed (.or 4#4 0#4) = false
    ∧ Instr.wellFormed (.or 0#4 4#4) = false := by decide
theorem test_wf_refuses_xor : Instr.wellFormed (.xor 4#4 0#4) = false
    ∧ Instr.wellFormed (.xor 0#4 4#4) = false := by decide
theorem test_wf_refuses_cmp : Instr.wellFormed (.cmp 4#4 0#4) = false
    ∧ Instr.wellFormed (.cmp 0#4 4#4) = false := by decide
theorem test_wf_refuses_jumps : Instr.wellFormed (.jump 4#4 0#4) = false
    ∧ Instr.wellFormed (.jumpIfZero 5#4 0#4) = false
    ∧ Instr.wellFormed (.jumpIfNotZero 15#4 0#4) = false := by decide
theorem test_wf_accepts_the_last_register : Instr.wellFormed (.load 3#4 3#4 15#4) = true := by
  decide

/-! ### Decoding: each row's word, written bit by bit from the patterns of R68 -/

theorem test_decode_reserved : decode 0b0000111111111111#16 = .reserved := by decide
theorem test_decode_nop : decode 0b0001001000110100#16 = .nop := by decide
theorem test_decode_halt : decode 0b0010101010111100#16 = .halt := by decide
theorem test_decode_loadImm : decode 0b0011001111110101#16 = .loadImm 3#4 5#4 := by decide
theorem test_decode_move : decode 0b0100000100101111#16 = .move 1#4 2#4 := by decide
theorem test_decode_load : decode 0b0101000000011110#16 = .load 0#4 1#4 14#4 := by decide
theorem test_decode_store : decode 0b0110000100101000#16 = .store 1#4 2#4 8#4 := by decide
theorem test_decode_add : decode 0b0111000000010111#16 = .add 0#4 1#4 := by decide
theorem test_decode_sub : decode 0b1000001000110000#16 = .sub 2#4 3#4 := by decide
theorem test_decode_and : decode 0b1001000000010000#16 = .and 0#4 1#4 := by decide
theorem test_decode_or : decode 0b1010001100010000#16 = .or 3#4 1#4 := by decide
theorem test_decode_xor : decode 0b1011000000010000#16 = .xor 0#4 1#4 := by decide
theorem test_decode_cmp : decode 0b1100000100100000#16 = .cmp 1#4 2#4 := by decide
theorem test_decode_jump : decode 0b1101111100110111#16 = .jump 3#4 7#4 := by decide
theorem test_decode_jumpIfZero : decode 0b1110000000100010#16 = .jumpIfZero 2#4 2#4 := by decide
theorem test_decode_jumpIfNotZero : decode 0b1111000000110000#16 = .jumpIfNotZero 3#4 0#4 := by
  decide
/-- The last word of 2.1: every field 0xF. -/
theorem test_split_ffff : splitWord 0xFFFF#16 = ⟨0xF#4, 0xF#4, 0xF#4, 0xF#4⟩ := by decide
theorem test_table_word : decodeTableWord 16 0x7010 = some (.add 0#4 1#4) := by decide
/-- The canonical words of R73: `LOAD R0, R1, -2` and `JUMP_IF_ZERO R2, 2`. -/
theorem test_encode : encode (.load 0#4 1#4 14#4) = 0x501E#16
    ∧ encode (.jumpIfZero 2#4 2#4) = 0xE022#16 := by decide

/-! ### One step of a small core: MEM_SIZE = 64, one instruction word at the PC -/

/-- 64 words of memory, no I/O region, no step limit, as part 2 of the vectors has it. -/
def params64 : Params := { Config.defaultParams with memSize := 64 }

/-- The core with these registers, the word `w` at the PC `pc`, and one more word of memory. -/
def start (r0 r1 r2 r3 pc w : Word) (p : Params := params64) (a : Nat := 63) (v : Word := 0#16) : State :=
  { State.init p with r0 := r0, r1 := r1, r2 := r2, r3 := r3, pc := pc,
                      mem := writeStorage a v (writeStorage pc.toNat w []) }

/-- The state after a step. -/
def after (s : State) : State :=
  match step s with
  | .next t => t
  | .fault _ => s
  | .refused _ => s

theorem test_add_wraps : let t := after (start 0xFFFF#16 1#16 0#16 0#16 0#16 0x7010#16)
    t.r0 = 0#16 ∧ t.z = true ∧ t.n = false ∧ t.pc = 1#16 ∧ t.ir = 0x7010#16 ∧ t.steps = 1 := by
  decide
theorem test_add_bad_rd : let t := after (start 1#16 2#16 0#16 0#16 0#16 0x7410#16)
    t.runState = .faulted .invalidOpcode ∧ t.r0 = 1#16 ∧ t.pc = 1#16 := by decide
theorem test_sub_negative : let t := after (start 0#16 0#16 3#16 5#16 0#16 0x8230#16)
    t.r2 = 0xFFFE#16 ∧ t.r3 = 5#16 ∧ t.z = false ∧ t.n = true := by decide
theorem test_and : let t := after (start 0x00F0#16 0x0F3C#16 0#16 0#16 0#16 0x9010#16)
    t.r0 = 0x0030#16 ∧ t.z = false ∧ t.n = false := by decide
theorem test_or : let t := after (start 0x8000#16 1#16 0#16 0#16 0#16 0xA010#16)
    t.r0 = 0x8001#16 ∧ t.z = false ∧ t.n = true := by decide
theorem test_xor : let t := after (start 0x1234#16 0xFFFF#16 0#16 0#16 0#16 0xB010#16)
    t.r0 = 0xEDCB#16 ∧ t.z = false ∧ t.n = true := by decide
theorem test_cmp_not_less_than : let t := after (start 0#16 0x8001#16 0#16 0#16 0#16 0xC010#16)
    t.r0 = 0#16 ∧ t.r1 = 0x8001#16 ∧ t.z = false ∧ t.n = false := by decide
theorem test_loadImm_negative : let t := after { start 0#16 0#16 0#16 0#16 0#16 0x3008#16 with z := true }
    t.r0 = 0xFFF8#16 ∧ t.z = true ∧ t.n = false := by decide
theorem test_move : let t := after (start 0#16 0#16 0x1234#16 0#16 0#16 0x4120#16)
    t.r1 = 0x1234#16 ∧ t.r2 = 0x1234#16 ∧ t.z = false := by decide
theorem test_load_negative_offset :
    (after (start 0#16 0x10#16 0#16 0#16 0#16 0x501E#16 params64 14 0xBEEF#16)).r0 = 0xBEEF#16 := by
  decide
/-- MEM_SIZE = 65536: the effective address 0xFFF9 + 7 wraps to 0, where the instruction itself stands. -/
theorem test_load_wraps : (after (start 0#16 0xFFF9#16 0#16 0#16 0#16 0x5017#16
    Config.defaultParams)).r0 = 0x5017#16 := by decide
theorem test_store : readStorage (after (start 0xAB#16 0x20#16 0#16 0#16 0#16 0x6013#16)).mem 0x23
    = 0x00AB#16 := by decide
theorem test_store_out_of_bounds : let t := after (start 0xAB#16 0x40#16 0#16 0#16 0#16 0x6010#16)
    t.runState = .faulted .memoryOutOfBounds ∧ t.pc = 1#16
      ∧ t.mem = (start 0xAB#16 0x40#16 0#16 0#16 0#16 0x6010#16).mem := by decide
theorem test_jump : (after (start 0#16 0#16 0#16 8#16 2#16 0xD03E#16)).pc = 6#16 := by decide
theorem test_jump_unchecked : let t := after (start 0#16 0#16 0#16 0#16 2#16 0xD00F#16)
    t.pc = 0xFFFF#16 ∧ t.runState = .running := by decide
theorem test_jumpIfZero_taken :
    (after { start 0#16 0#16 9#16 0#16 3#16 0xE020#16 with z := true }).pc = 9#16 := by decide
theorem test_jumpIfZero_bad_rs : (after (start 0#16 0#16 9#16 0#16 3#16 0xE050#16)).runState
    = .faulted .invalidOpcode := by decide
theorem test_jumpIfNotZero_taken :
    (after (start 0#16 0#16 0#16 4#16 6#16 0xF030#16)).pc = 4#16 := by decide
theorem test_jumpIfNotZero_untaken :
    (after { start 0#16 0#16 0#16 4#16 6#16 0xF030#16 with z := true }).pc = 7#16 := by decide
theorem test_nop_wraps_pc : (after (start 0#16 0#16 0#16 0#16 0xFFFF#16 0x1000#16
    Config.defaultParams)).pc = 0#16 := by decide
theorem test_halt : let t := after (start 0#16 0#16 0#16 0#16 3#16 0x2ABC#16)
    t.runState = .halted ∧ t.pc = 4#16 ∧ after t = t := by decide
theorem test_reserved : let t := after (start 1#16 2#16 3#16 4#16 0#16 0x0FFF#16)
    t.runState = .faulted .invalidOpcode ∧ t.r3 = 4#16 ∧ t.ir = 0x0FFF#16 := by decide

/-- MEM_SIZE = 32 with one I/O word at 16 (2.3, P9). -/
def params32 : Params :=
  { Config.defaultParams with memSize := 32, ioBase := 16#16, ioSize := 1 }

theorem test_store_io : let t := after (start 7#16 0#16 0#16 16#16 0#16 0x6030#16 params32)
    t.history = [.ioWrite 16#16 7#16] ∧ readStorage t.mem 16 = 0#16 := by decide
/-- The value read is the free value, whatever it is. -/
theorem test_load_io : let t := after (start 0#16 0#16 0#16 16#16 0#16 0x5130#16 params32)
    t.history = [.ioRead 16#16 t.r1] := rfl
theorem test_fetch_io : (after (start 0#16 0#16 0#16 0#16 16#16 0x1000#16 params32)).runState
    = .faulted .memoryOutOfBounds := by decide
theorem test_load_refused_on_io : hostLoad 16#16 [0#16] (State.init params32) = none := by decide
/-- STEP_LIMIT = 0 (2.6). -/
theorem test_step_limit_zero :
    let t := after (start 0#16 0#16 0#16 0#16 0#16 0x1000#16 { params64 with stepLimit := some 0 })
    t.runState = .faulted .stepLimitExceeded ∧ t.steps = 0 ∧ t.ir = 0#16 := by decide
theorem test_reset_runs_a_placed_word :
    step (State.reset.withFetchWord 16 0x3005)
      = exec (.loadImm 0#4 5#4) (latchFetched 0x3005#16
          (countStep (State.reset.withFetchWord 16 0x3005))) := rfl
theorem test_reset_memory : State.reset.mem.wf = true := by decide
theorem test_pack : packImage .big [0x30#8, 0x05#8] = some [0x3005#16]
    ∧ packImage .little [0x05#8, 0x30#8] = some [0x3005#16] := by decide

/-! ### Witnesses: states that meet the hypotheses of the statements -/

/-- A NOP at 0 in 64 words. -/
def nopCore : State := start 0#16 0x20#16 0#16 0#16 0#16 0x1000#16

/-- Registers 15, 16, 31 and 32 in the 32-word core: a RAM address, the I/O address, the last address, and the
first outside. -/
def edgeCore (w : Word) : State := start 15#16 16#16 31#16 32#16 0#16 w params32 17 0x1234#16

/-- ResetMeetsTheInvariants: legal parameters, at both ends of MEM_SIZE and with the I/O region filling memory. -/
theorem test_witness_legal_params : params64.legal = true ∧ params32.legal = true
    ∧ ({ params64 with memSize := 1 } : Params).legal = true
    ∧ ({ params64 with memSize := 65536 } : Params).legal = true
    ∧ ({ params64 with memSize := 4, ioSize := 4 } : Params).legal = true
    ∧ ({ params64 with memSize := 0 } : Params).legal = false := by decide

/-- InvalidOpcodeExactlyOnIllegalWords: an illegal word of each kind, at the boundary field values, and a legal one. -/
theorem test_witness_illegal_words : IllegalWord 0x0000#16 ∧ IllegalWord 0x3400#16
    ∧ IllegalWord 0xCF00#16 ∧ IllegalWord 0x4040#16 ∧ IllegalWord 0xF0F0#16
    ∧ ¬ IllegalWord 0x33F5#16 ∧ ¬ IllegalWord 0xDF37#16 ∧ ¬ IllegalWord 0x1FFF#16 := by
  unfold IllegalWord; decide

/-- The validation clauses of the arithmetic, MOVE, LOAD, STORE, LOAD_IMM and jump statements. -/
theorem test_witness_bad_fields : (4 ≤ (4#4 : Nibble).toNat ∨ 4 ≤ (0#4 : Nibble).toNat)
    ∧ (4 ≤ (3#4 : Nibble).toNat ∨ 4 ≤ (15#4 : Nibble).toNat) := by decide

/-- LoadReadsRamOrInputOrFaults and StoreWritesRamOrSinkOrFaults: RAM on both sides of the I/O region and at the last
address, the I/O region, the first address outside, and a wrapped address outside. -/
theorem test_witness_access_regions : let s := edgeCore 0x1000#16
    inRam s.params (baseOffset (readReg s .r0) 0#4).toNat = true
      ∧ inRam s.params (baseOffset (readReg s .r1) 1#4).toNat = true
      ∧ inRam s.params (baseOffset (readReg s .r2) 0#4).toNat = true
      ∧ ((baseOffset (readReg s .r1) 0#4).toNat < s.params.memSize
        ∧ inIo s.params (baseOffset (readReg s .r1) 0#4).toNat = true)
      ∧ s.params.memSize ≤ (baseOffset (readReg s .r3) 0#4).toNat
      ∧ s.params.memSize ≤ (baseOffset 0#16 15#4).toNat := by decide

/-- The state that a STORE of R2 to address 17 leaves. -/
def afterStore (s : State) : State :=
  setRunState .running (setMem (writeStorage 17 (readReg s .r2) s.mem) s)

/-- StoreThenLoadReturnsTheWord and StoreIsSeenByEveryLaterFetch: a STORE to RAM, a NOP's cycle after it, and a LOAD through
another register and offset that forms the same address; a STORE to the I/O region. -/
theorem test_witness_store_then_load : let s := edgeCore 0x1000#16
    inRam s.params (baseOffset (readReg s .r1) 1#4).toNat = true
      ∧ exec (.store (fieldOfReg .r2) (fieldOfReg .r1) 1#4) s = .next (afterStore s)
      ∧ CyclesWithoutStoreTo (baseOffset (readReg s .r1) 1#4) 1 (afterStore s)
        (after (afterStore s))
      ∧ baseOffset (readReg (after (afterStore s)) .r0) 2#4 = baseOffset (readReg s .r1) 1#4
      ∧ ((baseOffset (readReg s .r1) 0#4).toNat < s.params.memSize
        ∧ inIo s.params (baseOffset (readReg s .r1) 0#4).toNat = true) := by
  refine ⟨by decide, rfl, ⟨fun i u h => ?_, _, rfl, rfl⟩, by decide, by decide⟩
  have e : cycleFront (afterStore (edgeCore 0x1000#16)) = .execute .nop
      (latchFetched 0x1000#16 (countStep (afterStore (edgeCore 0x1000#16)))) := rfl
  rw [e] at h
  cases h
  decide

/-- RamStoreIsIdempotent. -/
theorem test_witness_ram_store : nopCore.mem.wf = true
    ∧ inRam nopCore.params (baseOffset (readReg nopCore .r1) 15#4).toNat = true := by decide

/-- StepRunsTheFetchedInstruction, and the running states of the statements about a cycle. -/
theorem test_witness_fetch : nopCore.runState = .running ∧ stepLimitReached nopCore = false
    ∧ fetchRead nopCore.pc nopCore = some 0x1000#16 := by decide

/-- ControlWordsAndTheReservedOpcode: a running state that fetches a word of each range. -/
theorem test_witness_control_words :
    (let s := start 0#16 0#16 0#16 0#16 3#16 0x1FFF#16;
      s.runState = .running ∧ stepLimitReached s = false
        ∧ fetchRead s.pc s = some 0x1FFF#16 ∧ (0x1FFF#16 : Word).toNat / 4096 = 1)
      ∧ (let s := start 0#16 0#16 0#16 0#16 3#16 0x2FFF#16;
        s.runState = .running ∧ stepLimitReached s = false
          ∧ fetchRead s.pc s = some 0x2FFF#16 ∧ (0x2FFF#16 : Word).toNat / 4096 = 2)
      ∧ (let s := start 0#16 0#16 0#16 0#16 3#16 0x0FFF#16;
        s.runState = .running ∧ stepLimitReached s = false
          ∧ fetchRead s.pc s = some 0x0FFF#16 ∧ (0x0FFF#16 : Word).toNat / 4096 = 0) := by decide

/-- A core whose limit is 5 and that has executed `n` cycles. -/
def limitCore (n : Nat) : State :=
  { start 0#16 0#16 0#16 0#16 0#16 0xD000#16 { params64 with stepLimit := some 5 } with steps := n }

/-- StepLimitStopsBeforeTheFetch: at the limit; one below it, with the state its step answers; and with none. -/
theorem test_witness_step_limit :
    ((limitCore 5).runState = .running ∧ (limitCore 5).params.stepLimit = some 5
        ∧ 5 ≤ (limitCore 5).steps)
      ∧ ((limitCore 4).runState = .running ∧ (∀ l, (limitCore 4).params.stepLimit = some l →
          (limitCore 4).steps < l) ∧ step (limitCore 4) = .next (after (limitCore 4)))
      ∧ (nopCore.runState = .running ∧ (∀ l, nopCore.params.stepLimit = some l → nopCore.steps < l)
        ∧ step nopCore = .next (after nopCore))
      ∧ ((limitCore 4).params.stepLimit = some 5 ∧ (limitCore 4).steps ≤ 5
        ∧ Host.Core.run Sys2Proof.core 1 (limitCore 4) = .next (after (limitCore 4))) := by
  refine ⟨by decide, ⟨by decide, ?_, by rfl⟩, ⟨by decide, ?_, by rfl⟩, by decide, by decide, rfl⟩
  · intro l hl
    have : l = 5 := (Option.some.inj hl).symm
    subst this; decide
  · intro l hl; cases hl

/-- FaultingFetchKeepsIrAndPc: the PC at MEM_SIZE, in the I/O region, and the RAM address below MEM_SIZE. -/
theorem test_witness_faulting_fetch :
    (let s := { nopCore with pc := 64#16 };
      s.runState = .running ∧ stepLimitReached s = false ∧ s.params.memSize ≤ s.pc.toNat)
      ∧ (let s := { edgeCore 0x1000#16 with pc := 16#16 };
        s.runState = .running ∧ stepLimitReached s = false ∧ inIo s.params s.pc.toNat = true)
      ∧ inRam nopCore.params (63#16 : Word).toNat = true := by decide

/-- TerminalStatesAreForEver and the terminal clauses of RunReturnsATerminalOutcome and IrAndStepCountOfACycle. -/
theorem test_witness_terminal : Terminal { nopCore with runState := .halted }
    ∧ ({ nopCore with runState := .faulted .invalidOpcode } : State).runState
      = .faulted .invalidOpcode := by
  exact ⟨by unfold Terminal; decide, rfl⟩

/-- IrAndStepCountOfACycle: the limit reached, a faulting fetch, and a fetch. -/
theorem test_witness_cycle_kinds : stepLimitReached (limitCore 5) = true
    ∧ (let s := { nopCore with pc := 64#16 };
      s.runState = .running ∧ stepLimitReached s = false ∧ fetchRead s.pc s = none)
    ∧ fetchRead nopCore.pc nopCore = some 0x1000#16 := by decide

/-- PcAtTheEndOfACycle: a running state that fetches each kind of taken jump, and one that fetches none. -/
theorem test_witness_jumps :
    (let s := start 0#16 0#16 0#16 8#16 2#16 0xD03E#16;
      s.runState = .running ∧ stepLimitReached s = false ∧ fetchRead s.pc s = some 0xD03E#16
        ∧ step s = .next (after s) ∧ decode 0xD03E#16 = .jump (fieldOfReg .r3) 14#4)
      ∧ (let s := { start 0#16 0#16 9#16 0#16 3#16 0xE020#16 with z := true };
        s.runState = .running ∧ stepLimitReached s = false ∧ fetchRead s.pc s = some 0xE020#16
          ∧ step s = .next (after s)
          ∧ (decode 0xE020#16 = .jumpIfZero (fieldOfReg .r2) 0#4 ∧ s.z = true))
      ∧ (let s := start 0#16 0#16 0#16 4#16 6#16 0xF030#16;
        s.runState = .running ∧ stepLimitReached s = false ∧ fetchRead s.pc s = some 0xF030#16
          ∧ step s = .next (after s)
          ∧ (decode 0xF030#16 = .jumpIfNotZero (fieldOfReg .r3) 0#4 ∧ s.z = false))
      ∧ step nopCore = .next (after nopCore) := by
  exact ⟨⟨by decide, by decide, by decide, rfl, by decide⟩,
    ⟨by decide, by decide, by decide, rfl, by decide⟩,
    ⟨by decide, by decide, by decide, rfl, by decide⟩, rfl⟩

/-- PcAtTheEndOfACycle, its other clause: what nopCore fetches is no jump with any operands. -/
theorem test_witness_no_jump (r : Reg) (imm : Nibble) :
    ¬ (decode 0x1000#16 = .jump (fieldOfReg r) imm
      ∨ (decode 0x1000#16 = .jumpIfZero (fieldOfReg r) imm ∧ nopCore.z = true)
      ∨ (decode 0x1000#16 = .jumpIfNotZero (fieldOfReg r) imm ∧ nopCore.z = false)) := by
  have h : decode 0x1000#16 = .nop := by decide
  simp [h]

/-- ExecutorWriteBounds and FlagsFollowTheResultOfTheSix: an answer, a flag writer's result, and an instruction that
writes no flag; a STORE's address and an instruction without one. -/
theorem test_witness_executor : exec (.add 0#4 1#4) nopCore
      = .next (setRunState .running (setZN 0x20#16 (writeReg .r0 0x20#16 nopCore)))
    ∧ flagResult (.add 0#4 1#4) nopCore = some 0x20#16
    ∧ flagResult (.move 0#4 1#4) nopCore = none ∧ writesFlags (.move 0#4 1#4) = false
    ∧ storeAddress (.store 0#4 1#4 1#4) nopCore = some 0x21#16
    ∧ storeAddress (.move 0#4 1#4) nopCore = none := by
  exact ⟨rfl, by decide, by decide, by decide, by decide, by decide⟩

/-- FaultingCycleHasNoOtherEffect: a running state whose step answers a faulted one. -/
theorem test_witness_faulting_cycle : let s := start 1#16 2#16 3#16 4#16 0#16 0x0FFF#16
    s.runState = .running ∧ step s = .next (after s)
      ∧ (after s).runState = .faulted .invalidOpcode := by
  exact ⟨rfl, rfl, by decide⟩

/-- FaultPriority: the limit reached; a faulting fetch; an illegal word; a legal LOAD out of bounds; a legal word without
a data access. -/
theorem test_witness_fault_priority :
    (stepLimitReached (limitCore 5) = true)
      ∧ (let s := { nopCore with pc := 64#16 };
        stepLimitReached s = false ∧ fetchRead s.pc s = none)
      ∧ (let s := edgeCore 0x5430#16;
        stepLimitReached s = false ∧ fetchRead s.pc s = some 0x5430#16 ∧ IllegalWord 0x5430#16)
      ∧ (let s := edgeCore 0x5030#16;
        stepLimitReached s = false ∧ fetchRead s.pc s = some 0x5030#16 ∧ ¬ IllegalWord 0x5030#16
          ∧ DataOutOfBounds 0x5030#16 s)
      ∧ (stepLimitReached nopCore = false ∧ fetchRead nopCore.pc nopCore = some 0x1000#16
        ∧ ¬ IllegalWord 0x1000#16 ∧ ¬ DataOutOfBounds 0x1000#16 nopCore) := by
  refine ⟨by decide, by decide, ⟨by decide, by decide, by unfold IllegalWord; decide⟩,
    ⟨by decide, by decide, by unfold IllegalWord; decide,
      0#4, 3#4, 0#4, .r3, by decide, by decide, by decide⟩,
    by decide, by decide, by unfold IllegalWord; decide, ?_⟩
  rintro ⟨rd, rs, imm, r, h, _⟩
  have hd : decode 0x1000#16 = .nop := by decide
  rw [hd] at h
  simp at h

/-- A core of 32 words with an I/O region, one executed cycle, a listed word and one event. -/
def invCore : State :=
  { State.init params32 with r3 := 16#16, pc := 1#16, ir := 0x6030#16, steps := 1,
                             mem := [(3, 0x10#8)], history := [.ioWrite 16#16 7#16] }

/-- EveryStepKeepsTheInvariant, HostLoadKeepsTheInvariant: a state that meets the invariant, and its step. -/
theorem test_witness_invariant : CoreInv invCore ∧ step invCore = .next (after invCore)
    ∧ hostLoad 4#16 [0x2000#16] invCore
      = some (setMem (writeWords 4 [0x2000#16] invCore.mem) invCore) := by
  refine ⟨⟨by decide, by decide, ?_, by decide, ?_, ?_⟩, rfl, rfl⟩
  · intro k hk
    by_cases h : k = 3
    · subst h; exact absurd hk (by decide)
    · simp [invCore, readCell, Ne.symm h]
  · intro before later a v h
    rcases before with _ | ⟨e, rest⟩
    · simp [invCore] at h
    · simp [invCore] at h
  · intro limit h; cases h

/-- EveryStopIsExplained: a running state, and a halted one. -/
theorem test_witness_stop : StopExplained nopCore
    ∧ StopExplained { nopCore with ir := 0x2ABC#16, runState := .halted } := by
  exact ⟨trivial, by show decode 0x2ABC#16 = .halt; decide⟩

/-- StepLimitEndsEveryRun. -/
theorem test_witness_limited_run : (limitCore 3).params.stepLimit = some 5 ∧ (limitCore 3).steps ≤ 5 := by
  decide

/-- RunReturnsATerminalOutcome: a run that has returned, and one that has not. -/
theorem test_witness_run :
    hostRun 2 (start 0#16 0#16 0#16 0#16 3#16 0x2000#16)
      = some (.halt, after (start 0#16 0#16 0#16 0#16 3#16 0x2000#16))
    ∧ hostRun 1 nopCore = none := by
  exact ⟨rfl, rfl⟩

/-- NegativeFlagIsNeverRead, StepCounterOnlyServesTheLimit, NoIoRegionNoInput and ParametersNeverChange. -/
theorem test_witness_unread_state : step nopCore = .next (after nopCore)
    ∧ nopCore.params.stepLimit = none ∧ nopCore.params.ioSize = 0 := by
  exact ⟨rfl, rfl, rfl⟩

/-- CanonicalMemoryIsUnique: a canonical memory that lists a byte. -/
theorem test_witness_canonical : Memory.wf [(3, 0x10#8), (7, 0x20#8)] = true
    ∧ Memory.wf [(7, 0x20#8), (3, 0x10#8)] = false ∧ Memory.wf [(3, 0x00#8)] = false := by decide

/-- PortOutOfBoundsChangesNothing: a transaction that answers out of bounds. -/
theorem test_witness_port : (portTransaction (.write 64#16 1#16) nopCore).1 = .oob := by decide

/-- HostLoadWritesTheWords: an accepted load that ends at the last address, and refused ones on each ground. -/
theorem test_witness_load : hostLoad 62#16 [1#16, 2#16] nopCore
      = some (setMem (writeWords 62 [1#16, 2#16] nopCore.mem) nopCore)
    ∧ hostLoad 63#16 [1#16, 2#16] nopCore = none
    ∧ hostLoad 15#16 [1#16, 2#16] (edgeCore 0#16) = none ∧ hostLoad 64#16 [] nopCore ≠ none := by
  exact ⟨rfl, by decide, by decide, by decide⟩

/-- LoadedWordIsFetched and InspectionOfMemory: RAM at the PC; the I/O address; the first address outside. -/
theorem test_witness_inspection : inRam nopCore.params nopCore.pc.toNat = true
    ∧ (params64.memSize ≤ (64#16 : Word).toNat)
    ∧ ((16#16 : Word).toNat < params32.memSize ∧ inIo params32 (16#16 : Word).toNat = true) := by
  decide

/-- IgnoredBitsHaveNoEffect, its clause on the assembler: a statement that is no raw word. -/
theorem test_witness_canonical_word : assemble (.jump .r3 (some (-2))) = some 0xD03E#16
    ∧ ∀ v : Word, Asm.jump .r3 (some (-2)) ≠ .word v := by
  exact ⟨by decide, fun v h => by cases h⟩

/-- AssemblerWordsAndRefusals: immediates at both ends and just outside. -/
theorem test_witness_asm : asmImm (-8) = some 8#4 ∧ asmImm 7 = some 7#4 ∧ asmImm 8 = none
    ∧ asmImm (-9) = none := by decide

/-- P1 and P3's lines of 95_test_vectors.md part 3, with and without a blank after the comma (R73). -/
theorem test_asm_text :
    assembleChars ['L', 'O', 'A', 'D', '_', 'I', 'M', 'M', ' ', 'R', '0', ',', '5'] = some 0x3005#16
      ∧ assembleChars ['S', 'T', 'O', 'R', 'E', ' ', 'R', '2', ',', ' ', 'R', '3', ',', ' ', '-', '1']
        = some 0x623F#16
      ∧ assembleChars ['J', 'U', 'M', 'P', ' ', 'R', '3', ',', '0', 'x', '7'] = some 0xD037#16
      ∧ assembleChars ['A', 'D', 'D', ' ', 'R', '0', ',', 'R', '4'] = none := by decide

/-- AssemblyTextReadsBack, its refusals: a mnemonic R69 leaves out, bare, before a space and before a tab. -/
theorem test_witness_left_out :
    (splitMnemonic ['R', 'E', 'T', 'U', 'R', 'N']).1 = ['R', 'E', 'T', 'U', 'R', 'N']
      ∧ (splitMnemonic ['N', 'O', 'T', ' ', 'R', '0']).1 = ['N', 'O', 'T']
      ∧ (splitMnemonic ['C', 'A', 'L', 'L', '\t', 'R', '1']).1 = ['C', 'A', 'L', 'L'] := by decide

/-- AssemblyTextReadsBack: statements the assembler accepts, at an offset's lowest value and a word's highest. -/
theorem test_witness_asm_text : assemble (.load .r0 .r1 (some (-8))) ≠ none
    ∧ assemble (.word 0xFFFF#16) ≠ none := by decide

end Sys2Proof.Tests
end

section
/-! PROOFS. The state right after construction (R33), and the flags an instruction leaves (R26, R27). -/

namespace Sys2Proof.Machine

/-! ### Construction -/

@[simp] theorem readReg_init (p : Params) (r : Reg) : readReg (State.init p) r = 0x0000#16 := by
  cases r <;> rfl

@[simp] theorem init_pc (p : Params) : (State.init p).pc = p.entry := rfl

@[simp] theorem init_ir (p : Params) : (State.init p).ir = 0x0000#16 := rfl

@[simp] theorem init_z (p : Params) : (State.init p).z = false := rfl

@[simp] theorem init_n (p : Params) : (State.init p).n = false := rfl

@[simp] theorem init_runState (p : Params) : (State.init p).runState = .running := rfl

@[simp] theorem init_steps (p : Params) : (State.init p).steps = 0 := rfl

@[simp] theorem init_mem (p : Params) : (State.init p).mem = [] := rfl

@[simp] theorem init_history (p : Params) : (State.init p).history = [] := rfl

@[simp] theorem init_params (p : Params) : (State.init p).params = p := rfl

/-- Settles O1: the registers by cases, the memory because the list is empty, every other field as constructed. -/
theorem constructionLeavesResetValues : Obligations.ConstructionLeavesResetValues := by
  intro p
  exact ⟨readReg_init p, init_pc p, init_ir p, init_z p, init_n p, init_runState p, init_steps p,
    readStorage_nil, init_history p⟩

/-! ### The flags of a result -/

theorem zeroFlag_iff (v : Word) : zeroFlag v = true ↔ v = 0x0000#16 := by
  simp [zeroFlag]

/-- Bit 15 is set exactly in the upper half of the words. -/
theorem negativeFlag_iff (v : Word) : negativeFlag v = true ↔ 32768 ≤ v.toNat := by
  have hmsb : negativeFlag v = v.msb := (BitVec.msb_eq_getLsbD_last v).symm
  simp [hmsb, BitVec.msb_eq_decide]

/-- The flags that `setZN` writes, in any state that carries them. -/
theorem flagsOf_of_setZN {v : Word} {t : State} (hz : t.z = zeroFlag v) (hn : t.n = negativeFlag v) :
    FlagsOf v t := by
  rw [FlagsOf, hz, hn]
  exact ⟨zeroFlag_iff v, negativeFlag_iff v⟩

/-! ### Which instructions have a flag result -/

/-- Two operands are read exactly when both fields name a register. -/
theorem aluOperands_isSome (f : Word → Word → Word) (rd rs : Nibble) (s : State) :
    (flagResult.aluOperands f rd rs s).isSome = (namesReg rd && namesReg rs) := by
  rw [namesReg_eq_isSome, namesReg_eq_isSome]
  unfold flagResult.aluOperands
  cases regOfField rd <;> cases regOfField rs <;> rfl

/-- The instructions with a flag result are the legal ones of the six flag writers. -/
theorem flagResult_isSome (i : Instr) (s : State) :
    (flagResult i s).isSome = (writesFlags i && i.wellFormed) := by
  cases i
  case add rd rs => exact aluOperands_isSome _ rd rs s
  case sub rd rs => exact aluOperands_isSome _ rd rs s
  case and rd rs => exact aluOperands_isSome _ rd rs s
  case or rd rs => exact aluOperands_isSome _ rd rs s
  case xor rd rs => exact aluOperands_isSome _ rd rs s
  case cmp rd rs => exact aluOperands_isSome _ rd rs s
  all_goals rfl

theorem flagResult_eq_none_iff (i : Instr) (s : State) :
    flagResult i s = none ↔ writesFlags i = false ∨ i.wellFormed = false := by
  rw [← Option.not_isSome_iff_eq_none, flagResult_isSome, Bool.not_eq_true, Bool.and_eq_false_iff]

@[simp] theorem flagResult_cmp (d r : Reg) (s : State) :
    flagResult (.cmp (fieldOfReg d) (fieldOfReg r)) s = some (readReg s d - readReg s r) := by
  simp [flagResult, flagResult.aluOperands]

/-! ### The flags an instruction leaves -/

/-- What an instruction does to the flags: it has a result and they follow it, or it has none and they stay. -/
def FlagEffect (i : Instr) (s t : State) : Prop :=
  (∃ v, flagResult i s = some v ∧ FlagsOf v t) ∨ (flagResult i s = none ∧ SameFlags s t)

theorem flagEffect_of_not_writesFlags {i : Instr} {s t : State} (hi : writesFlags i = false)
    (hz : t.z = s.z) (hn : t.n = s.n) : FlagEffect i s t :=
  .inr ⟨(flagResult_eq_none_iff i s).2 (.inl hi), hz, hn⟩

/-- Each effect an instruction can have on the state, seen at the flags. -/
theorem ExecEffect.flagEffect {i : Instr} {s t : State} (h : ExecEffect i s t) :
    FlagEffect i s t := by
  cases h with
  | invalid hw => exact .inr ⟨(flagResult_eq_none_iff i s).2 (.inr hw), rfl, rfl⟩
  | alu d r f _ _ hr => exact .inl ⟨_, hr, flagsOf_of_setZN rfl rfl⟩
  | compare d r hi => exact .inl ⟨_, by rw [hi, flagResult_cmp], flagsOf_of_setZN rfl rfl⟩
  | nop hi => subst hi; exact flagEffect_of_not_writesFlags rfl rfl rfl
  | halt hi => subst hi; exact flagEffect_of_not_writesFlags rfl rfl rfl
  | immediate d imm hi => subst hi; exact flagEffect_of_not_writesFlags rfl (by simp) (by simp)
  | move d r hi => subst hi; exact flagEffect_of_not_writesFlags rfl (by simp) (by simp)
  | loadRam d r imm hi => subst hi; exact flagEffect_of_not_writesFlags rfl (by simp) (by simp)
  | loadIo d r imm v hi => subst hi; exact flagEffect_of_not_writesFlags rfl (by simp) (by simp)
  | storeRam d r imm hi => subst hi; exact flagEffect_of_not_writesFlags rfl rfl rfl
  | storeIo d r imm hi => subst hi; exact flagEffect_of_not_writesFlags rfl rfl rfl
  | outOfBounds d r imm hi =>
    rcases hi with rfl | rfl <;> exact flagEffect_of_not_writesFlags rfl rfl rfl
  | taken r imm hi =>
    rcases hi with rfl | ⟨rfl, _⟩ | ⟨rfl, _⟩ <;> exact flagEffect_of_not_writesFlags rfl rfl rfl
  | untaken r imm hi =>
    rcases hi with ⟨rfl, _⟩ | ⟨rfl, _⟩ <;> exact flagEffect_of_not_writesFlags rfl rfl rfl

/-- Settles O35: the flag effect of the one answer, read off for a result and for none. -/
theorem flagsFollowTheResultOfTheSix : Obligations.FlagsFollowTheResultOfTheSix := by
  intro i s
  obtain ⟨t, ht, he⟩ := exec_effect i s
  refine ⟨t, ht, ?_⟩
  rcases he.flagEffect with ⟨v, hv, hflags⟩ | ⟨hnone, hsame⟩
  · simp [hv, hflags]
  · simp [hnone, hsame]

end Sys2Proof.Machine
end

section
/-! PROOFS. The memory access of LOAD and STORE (R44, R45, R123, R124), what a fetch reads (R46, R82), and the fetches
that follow a STORE (R56). -/

namespace Sys2Proof

/-! ### Decoding a concatenation -/

/-- A concatenation splits into the four fields it was made of (R64). -/
@[simp] theorem splitWord_joinFields (f : Fields) : splitWord (joinFields f) = f := by
  have hsum := joinFields_toNat f
  have hop : (splitWord (joinFields f)).op = f.op :=
    BitVec.eq_of_toNat_eq (by rw [splitWord_op_toNat]; omega)
  have hrd : (splitWord (joinFields f)).rd = f.rd :=
    BitVec.eq_of_toNat_eq (by rw [splitWord_rd_toNat]; omega)
  have hrs : (splitWord (joinFields f)).rs = f.rs :=
    BitVec.eq_of_toNat_eq (by rw [splitWord_rs_toNat]; omega)
  have himm : (splitWord (joinFields f)).imm = f.imm :=
    BitVec.eq_of_toNat_eq (by rw [splitWord_imm_toNat]; omega)
  cases f
  rw [Fields.mk.injEq]
  exact ⟨hop, hrd, hrs, himm⟩

/-- A concatenation decodes by the opcode map alone. -/
theorem decode_joinFields (f : Fields) : decode (joinFields f) = instrOfFields f := by
  rw [decode, splitWord_joinFields]

end Sys2Proof

namespace Sys2Proof.Machine

/-! ### Validation of two fields -/

theorem fieldOfReg_toNat_lt (r : Reg) : (fieldOfReg r).toNat < 4 := by
  cases r <;> decide

/-- One bad field of two raises InvalidOpcode, whatever the rule is. -/
theorem withReg_withReg_invalid {f g : Nibble} (h : 4 ≤ f.toNat ∨ 4 ≤ g.toNat) (s : State)
    (rule : Reg → Reg → Host.Outcome State Fault Refusal) :
    (withReg f s fun d => withReg g s fun r => rule d r)
      = .next (setRunState (.faulted .invalidOpcode) s) := by
  rcases withReg_withReg_cases f g s rule with ⟨d, r, rfl, rfl, _⟩ | ⟨_, e⟩
  · have hd := fieldOfReg_toNat_lt d
    have hr := fieldOfReg_toNat_lt r
    omega
  · exact e

/-! ### Frames of the single updates -/

theorem sameMemory_of_mem_eq {s t : State} (h : t.mem = s.mem) : SameMemory s t := fun k => by rw [h]

/-- An instruction that writes one register and continues has the frame of one. -/
theorem frameReg_writeReg (d : Reg) (v : Word) (s : State) :
    FrameReg d s (setRunState .running (writeReg d v s)) := by
  refine ⟨fun q hq => ?_, ?_, rfl, ?_, sameMemory_of_mem_eq ?_, ?_, ?_, ?_⟩
  · rw [readReg_setRunState, readReg_writeReg_ne hq]
  all_goals simp

theorem sameFlags_writeReg (d : Reg) (v : Word) (s : State) :
    SameFlags s (setRunState .running (writeReg d v s)) := by
  simp [SameFlags]

theorem sameMemoryBut_writeStorage (a v : Word) (s : State) :
    SameMemoryBut a s (setMem (writeStorage a.toNat v s.mem) s) :=
  fun _ hk => readCell_writeStorage_ne hk v s.mem

/-! ### LOAD -/

section
variable {rd rs imm : Nibble} {d r : Reg} {s : State}

theorem exec_load_invalid (h : 4 ≤ rd.toNat ∨ 4 ≤ rs.toNat) :
    exec (.load rd rs imm) s = .next (setRunState (.faulted .invalidOpcode) s) :=
  withReg_withReg_invalid h s _

/-- LOAD ends with the word of a successful access in Rd. -/
theorem exec_load_of_memRead {v : Word} {s' : State}
    (h : memRead (baseOffset (readReg s r) imm) s = some (v, s')) :
    exec (.load (fieldOfReg d) (fieldOfReg r) imm) s
      = .next (setRunState .running (writeReg d v s')) := by
  simp [exec, execLoad, h, endCycle_eq]

theorem exec_load_oob (h : inBounds s.params (baseOffset (readReg s r) imm).toNat = false) :
    exec (.load (fieldOfReg d) (fieldOfReg r) imm) s
      = .next (setRunState (.faulted .memoryOutOfBounds) s) := by
  simp [exec, execLoad, memRead_oob h, raiseFault_eq]

/-! ### STORE -/

theorem exec_store_invalid (h : 4 ≤ rd.toNat ∨ 4 ≤ rs.toNat) :
    exec (.store rd rs imm) s = .next (setRunState (.faulted .invalidOpcode) s) :=
  withReg_withReg_invalid h s _

/-- STORE ends in the state its access left. -/
theorem exec_store_of_memWrite {s' : State}
    (h : memWrite (baseOffset (readReg s r) imm) (readReg s d) s = some s') :
    exec (.store (fieldOfReg d) (fieldOfReg r) imm) s = .next (setRunState .running s') := by
  simp [exec, execStore, h, endCycle_eq]

theorem exec_store_ram (h : inRam s.params (baseOffset (readReg s r) imm).toNat = true) :
    exec (.store (fieldOfReg d) (fieldOfReg r) imm) s
      = .next (setRunState .running (setMem
          (writeStorage (baseOffset (readReg s r) imm).toNat (readReg s d) s.mem) s)) := by
  obtain ⟨hb, hi⟩ := (inRam_iff _ _).1 h
  exact exec_store_of_memWrite (memWrite_ram _ hb hi)

theorem exec_store_oob (h : inBounds s.params (baseOffset (readReg s r) imm).toNat = false) :
    exec (.store (fieldOfReg d) (fieldOfReg r) imm) s
      = .next (setRunState (.faulted .memoryOutOfBounds) s) := by
  simp [exec, execStore, memWrite_oob _ h, raiseFault_eq]

end

/-- Settles O18: the cases of the address map, each with its answer of the read access. -/
theorem loadReadsRamOrInputOrFaults : Obligations.LoadReadsRamOrInputOrFaults := by
  refine ⟨fun _ _ _ => decode_joinFields _, fun _ _ _ _ => exec_load_invalid, ?_, ?_, ?_⟩
  · intro d r imm s hout
    exact exec_load_oob ((inBounds_false_iff _ _).2 hout)
  · intro d r imm s hram
    obtain ⟨hb, hi⟩ := (inRam_iff _ _).1 hram
    exact ⟨_, exec_load_of_memRead (memRead_ram hb hi), by simp, sameFlags_writeReg d _ s,
      frameReg_writeReg d _ s⟩
  · intro d r imm s hlt hi
    exact ⟨_, exec_load_of_memRead (memRead_io ((inBounds_iff _ _).2 hlt) hi), by simp, by simp,
      sameFlags_writeReg d _ _, fun q hq => by simp [readReg_writeReg_ne hq], by simp, rfl,
      sameMemory_of_mem_eq (by simp), by simp, by simp, by simp⟩

/-- Settles O19: the same cases, each with its answer of the write access. -/
theorem storeWritesRamOrSinkOrFaults : Obligations.StoreWritesRamOrSinkOrFaults := by
  refine ⟨fun _ _ _ => decode_joinFields _, fun _ _ _ _ => exec_store_invalid, ?_, ?_, ?_⟩
  · intro d r imm s hout
    exact exec_store_oob ((inBounds_false_iff _ _).2 hout)
  · intro d r imm s hram
    exact ⟨_, exec_store_ram hram, readStorage_writeStorage_same _ _ _,
      sameMemoryBut_writeStorage _ _ s, fun q => by simp, ⟨rfl, rfl⟩, rfl, rfl, rfl, rfl, rfl, rfl⟩
  · intro d r imm s hlt hi
    exact ⟨_, exec_store_of_memWrite (memWrite_io _ ((inBounds_iff _ _).2 hlt) hi), rfl,
      sameMemory_of_mem_eq rfl, fun q => by simp, ⟨rfl, rfl⟩, rfl, rfl, rfl, rfl, rfl⟩

/-! ### What a fetch reads -/

theorem fetchRead_ram {a : Word} {s : State} (h : inRam s.params a.toNat = true) :
    fetchRead a s = some (readStorage s.mem a.toNat) :=
  (fetchRead_eq_some_iff a s _).2 ⟨h, rfl⟩

theorem inRam_false_iff (p : Params) (a : Nat) :
    inRam p a = false ↔ p.memSize ≤ a ∨ inIo p a = true := by
  rw [inRam, Bool.and_eq_false_iff, inBounds_false_iff, Bool.not_eq_false']

/-- A fetch depends on the parameters and the word at its address alone. -/
theorem fetchRead_eq_of_same_word {s t : State} {a : Word} (hp : t.params = s.params)
    (hw : readStorage t.mem a.toNat = readStorage s.mem a.toNat) :
    fetchRead a t = fetchRead a s := by
  simp only [fetchRead, hp, hw]

/-- A cycle whose fetch answers no word counts itself and faults (R82). -/
theorem step_of_fetch_fault {s : State} (hr : s.runState = .running)
    (hl : stepLimitReached s = false) (hf : fetchRead s.pc s = none) :
    step s = .next (setRunState (.faulted .memoryOutOfBounds) (countStep s)) := by
  have hc : fetchRead s.pc (countStep s) = none := hf
  simp [step, cycleFront, hr, hl, hc]

/-- Settles O30: outside the RAM region a fetch answers nothing, and the cycle is over there. -/
theorem faultingFetchKeepsIrAndPc : Obligations.FaultingFetchKeepsIrAndPc := by
  refine ⟨fun a s hram => fetchRead_ram hram, ?_⟩
  intro s hr hl hout
  have hf : fetchRead s.pc s = none :=
    (fetchRead_eq_none_iff s.pc s).2 ((inRam_false_iff _ _).2 hout)
  exact ⟨hf, step_of_fetch_fault hr hl hf⟩

/-! ### What a cycle leaves in memory -/

theorem storeAddress_store (d r : Reg) (imm : Nibble) (s : State) :
    storeAddress (.store (fieldOfReg d) (fieldOfReg r) imm) s
      = some (baseOffset (readReg s r) imm) := by
  simp [storeAddress]

theorem ExecEffect.params_eq {i : Instr} {s t : State} (h : ExecEffect i s t) :
    t.params = s.params := by
  cases h <;> simp

/-- Executing an instruction leaves the storage alone, unless it is a STORE, which writes the word at its address. -/
theorem ExecEffect.mem_cases {i : Instr} {s t : State} (h : ExecEffect i s t) :
    t.mem = s.mem
      ∨ ∃ a v : Word, storeAddress i s = some a ∧ t.mem = writeStorage a.toNat v s.mem := by
  cases h with
  | storeRam d r imm hi => subst hi; exact .inr ⟨_, _, storeAddress_store d r imm s, rfl⟩
  | _ => exact .inl (by simp)

/-- A fetch sees no instruction but a STORE to its address. -/
theorem ExecEffect.fetchRead_eq {i : Instr} {s t : State} {a : Word} (h : ExecEffect i s t)
    (hns : storeAddress i s ≠ some a) : fetchRead a t = fetchRead a s := by
  rcases h.mem_cases with hm | ⟨b, v, hb, hm⟩
  · exact fetchRead_congr a h.params_eq hm
  · have hne : a.toNat ≠ b.toNat := fun e => hns (by rw [hb, BitVec.eq_of_toNat_eq e])
    exact fetchRead_eq_of_same_word h.params_eq
      (by rw [hm, readStorage_writeStorage_ne hne])

/-- The state a front of a cycle hands on: the cycle's last, or the one its instruction executes in. -/
def CycleFront.state : CycleFront → State
  | .over s => s
  | .execute _ s => s

/-- Up to the executor a cycle changes neither the parameters nor the storage. -/
theorem cycleFront_frame (s : State) :
    (cycleFront s).state.params = s.params ∧ (cycleFront s).state.mem = s.mem := by
  rcases cycleFront_cases s with ⟨_, e⟩ | ⟨_, _, e⟩ | ⟨_, _, _, e⟩ | ⟨w, _, _, _, e⟩ <;>
    rw [e] <;> exact ⟨rfl, rfl⟩

/-- A step is over with its front, or executes one instruction with one of its effects. -/
theorem step_cases {s t : State} (h : step s = .next t) :
    cycleFront s = .over t ∨ ∃ i u, cycleFront s = .execute i u ∧ ExecEffect i u t := by
  unfold step at h
  rcases hc : cycleFront s with u | ⟨i, u⟩ <;> rw [hc] at h
  · cases h; exact .inl rfl
  · exact .inr ⟨i, u, rfl, effect_of_exec h⟩

theorem fetchRead_step {s t : State} {a : Word} (h : step s = .next t)
    (hns : ∀ (i : Instr) (u : State), cycleFront s = .execute i u → storeAddress i u ≠ some a) :
    fetchRead a t = fetchRead a s := by
  obtain ⟨hp, hm⟩ := cycleFront_frame s
  have hfront : fetchRead a (cycleFront s).state = fetchRead a s := fetchRead_congr a hp hm
  rcases step_cases h with hc | ⟨i, u, hc, he⟩ <;> rw [hc] at hfront
  · exact hfront
  · exact (he.fetchRead_eq (hns i u hc)).trans hfront

/-- However many cycles pass without a STORE to an address, a fetch of it answers the same. -/
theorem fetchRead_cyclesWithoutStoreTo {a : Word} {cycles : Nat} {s t : State}
    (h : CyclesWithoutStoreTo a cycles s t) : fetchRead a t = fetchRead a s := by
  induction cycles generalizing s with
  | zero => rw [show t = s from h]
  | succ k ih =>
    obtain ⟨hns, u, hstep, hrest⟩ := h
    exact (ih hrest).trans (fetchRead_step hstep hns)

/-- Settles O21: the fetch right after the STORE finds the word, and the cycles that follow keep it. -/
theorem storeIsSeenByEveryLaterFetch : Obligations.StoreIsSeenByEveryLaterFetch := by
  intro d r imm s hram
  have hexec := exec_store_ram (d := d) hram
  refine ⟨_, hexec, ?_, ?_⟩
  · intro cycles u hcycles
    rw [fetchRead_cyclesWithoutStoreTo hcycles]
    exact (fetchRead_eq_some_iff _ _ _).2 ⟨hram, readStorage_writeStorage_same _ _ _⟩
  · intro a ha
    refine (effect_of_exec hexec).fetchRead_eq ?_
    rw [storeAddress_store]
    exact fun e => ha (Option.some.inj e).symm

end Sys2Proof.Machine
end

section
/-! PROOFS. The four fields of a word (R62, R64), the bits its opcode ignores (R71, R74), and which words are illegal
(R70, R85). -/

namespace Sys2Proof

/-! ### The fields of a word -/

/-- The fields of a word concatenate to it (R64). -/
@[simp] theorem joinFields_splitWord (w : Word) : joinFields (splitWord w) = w := by
  apply BitVec.eq_of_toNat_eq
  rw [joinFields_toNat, splitWord_op_toNat, splitWord_rd_toNat, splitWord_rs_toNat,
    splitWord_imm_toNat]
  omega

theorem splitWord_injective : Function.Injective splitWord :=
  Function.LeftInverse.injective joinFields_splitWord

/-- Settles O4: the digits of each field, and the concatenation as the inverse of the split. -/
theorem fieldsOfAWordRoundTrip : Obligations.FieldsOfAWordRoundTrip :=
  ⟨fun w => ⟨joinFields_splitWord w, splitWord_op_toNat w, splitWord_rd_toNat w,
    splitWord_rs_toNat w, splitWord_imm_toNat w⟩, fun _ _ h => splitWord_injective h⟩

/-! ### Instructions and fields -/

/-- The canonical fields of an instruction stand for it. -/
theorem instrOfFields_fieldsOfInstr (i : Instr) : instrOfFields (fieldsOfInstr i) = i := by
  cases i <;> rfl

/-- The fields of the instruction that four fields stand for are those with the ignored ones cleared. -/
theorem fieldsOfInstr_instrOfFields (f : Fields) :
    fieldsOfInstr (instrOfFields f) = canonicalFields f := by
  obtain ⟨op, rd, rs, imm⟩ := f
  rcases nibble_cases op with h | h | h | h | h | h | h | h | h | h | h | h | h | h | h | h <;>
    subst h <;> rfl

theorem encode_decode (w : Word) : encode (decode w) = joinFields (canonicalFields (splitWord w)) :=
  congrArg joinFields (fieldsOfInstr_instrOfFields (splitWord w))

theorem decode_encode (i : Instr) : decode (encode i) = i :=
  (decode_joinFields _).trans (instrOfFields_fieldsOfInstr i)

/-! ### The bits an opcode uses -/

/-- A field of four ones where the opcode uses the field, of four zeros where it ignores it. -/
def fieldMask (used : Bool) : Nibble := if used then 0xF#4 else 0x0#4

/-- The fields of the mask of the bits an opcode uses (R67, R68). -/
def usedFields (op : Nibble) : Fields :=
  { op := fieldMask true, rd := fieldMask (shapeOfOp op).usesRd,
    rs := fieldMask (shapeOfOp op).usesRs, imm := fieldMask (shapeOfOp op).usesImm }

/-- The patterns of R68 mask exactly the fields that R67 gives each opcode. -/
theorem usedBits_toNat (op : Nibble) : Machine.usedBits op.toNat = joinFields (usedFields op) := by
  revert op; decide

theorem and_fieldMask (x : Nibble) (used : Bool) :
    x &&& fieldMask used = if used then x else 0x0#4 := by
  cases used
  · exact BitVec.and_zero
  · exact BitVec.and_allOnes

/-- A conjunction of two words is taken field by field. -/
theorem joinFields_and_joinFields (f g : Fields) :
    joinFields f &&& joinFields g
      = joinFields ⟨f.op &&& g.op, f.rd &&& g.rd, f.rs &&& g.rs, f.imm &&& g.imm⟩ := by
  rw [joinFields, joinFields, joinFields, BitVec.and_append, BitVec.and_append, BitVec.and_append]

/-- Masking a word with the bits its opcode uses clears the fields it ignores (R71). -/
theorem joinFields_and_usedBits (f : Fields) :
    joinFields f &&& Machine.usedBits f.op.toNat = joinFields (canonicalFields f) := by
  rw [usedBits_toNat, joinFields_and_joinFields]
  simp only [usedFields, and_fieldMask, canonicalFields, if_true]

theorem encode_decode_eq_and_usedBits (w : Word) :
    encode (decode w) = w &&& Machine.usedBits (w.toNat / 4096) := by
  have h := joinFields_and_usedBits (splitWord w)
  rw [joinFields_splitWord, splitWord_op_toNat] at h
  rw [encode_decode, h]

theorem decode_and_usedBits (w : Word) :
    decode (w &&& Machine.usedBits (w.toNat / 4096)) = decode w := by
  rw [← encode_decode_eq_and_usedBits, decode_encode]

/-! ### The fields that validation refuses -/

theorem usesRd_shapeOfOp_iff (op : Nibble) :
    (shapeOfOp op).usesRd = true ↔ 3 ≤ op.toNat ∧ op.toNat ≤ 12 := by
  revert op; decide

theorem usesRs_shapeOfOp_iff (op : Nibble) : (shapeOfOp op).usesRs = true ↔ 4 ≤ op.toNat := by
  revert op; decide

/-- Validation refuses the reserved opcode and a used register field above 3, and nothing else (R85). -/
theorem validFields_eq_false_iff (f : Fields) :
    validFields f = false ↔ f.op.toNat = 0
      ∨ (3 ≤ f.op.toNat ∧ f.op.toNat ≤ 12 ∧ 4 ≤ f.rd.toNat)
      ∨ (4 ≤ f.op.toNat ∧ 4 ≤ f.rs.toNat) := by
  have hop : f.op = 0x0#4 ↔ f.op.toNat = 0 := BitVec.toNat_inj.symm
  simp only [validFields, Bool.and_eq_false_iff, Bool.not_eq_false', Bool.and_eq_true,
    Bool.not_eq_true', beq_iff_eq, hop, usesRd_shapeOfOp_iff, usesRs_shapeOfOp_iff,
    Machine.namesReg_eq_false_iff, and_assoc, or_assoc]

theorem validFields_splitWord_eq_false_iff (w : Word) :
    validFields (splitWord w) = false ↔ Machine.IllegalWord w := by
  rw [validFields_eq_false_iff, splitWord_op_toNat, splitWord_rd_toNat, splitWord_rs_toNat,
    Machine.IllegalWord]

/-- The words that decode to an instruction that is not well-formed are the illegal ones (R70). -/
theorem wellFormed_decode_eq_false_iff (w : Word) :
    (decode w).wellFormed = false ↔ Machine.IllegalWord w := by
  rw [decode, instrOfFields_wellFormed, validFields_splitWord_eq_false_iff]

end Sys2Proof

namespace Sys2Proof.Machine

/-! ### The assembler's words -/

/-- Every statement but a raw word assembles to the canonical word of an instruction (R73). -/
theorem exists_encode_of_assemble {a : Asm} {w : Word} (h : assemble a = some w)
    (hraw : ∀ v : Word, a ≠ .word v) : ∃ i, encode i = w := by
  cases a with
  | word v => exact absurd rfl (hraw v)
  | loadImm | load | store | jump | jumpIfZero | jumpIfNotZero =>
    obtain ⟨_, _, hw⟩ := Option.map_eq_some_iff.1 h
    exact ⟨_, hw⟩
  | _ => exact ⟨_, Option.some.inj h⟩

/-- Settles O6: masking a word is decoding and encoding it, and a canonical word is its own encoding. -/
theorem ignoredBitsHaveNoEffect : Obligations.IgnoredBitsHaveNoEffect := by
  refine ⟨fun w s => ⟨encode_decode_eq_and_usedBits w, decode_and_usedBits w, ?_⟩, ?_⟩
  · rw [decode_and_usedBits]
  · intro a w ha hraw
    obtain ⟨i, rfl⟩ := exists_encode_of_assemble ha hraw
    rw [← encode_decode_eq_and_usedBits, decode_encode]

/-! ### Executing an illegal instruction -/

/-- An instruction that is not well-formed faults InvalidOpcode with no other effect (R85, R88), and a well-formed one does
not fault so. -/
theorem ExecEffect.invalid_or_wellFormed {i : Instr} {s t : State} (h : ExecEffect i s t) :
    (i.wellFormed = false ∧ t = setRunState (.faulted .invalidOpcode) s)
      ∨ (i.wellFormed = true ∧ t.runState ≠ .faulted .invalidOpcode) := by
  cases h with
  | invalid hw => exact .inl ⟨hw, rfl⟩
  | alu d r f _ hw => exact .inr ⟨hw, by simp⟩
  | outOfBounds d r imm hi =>
    rcases hi with rfl | rfl <;> exact .inr (by simp [Instr.wellFormed])
  | taken r imm hi =>
    rcases hi with rfl | ⟨rfl, _⟩ | ⟨rfl, _⟩ <;> exact .inr (by simp [Instr.wellFormed])
  | untaken r imm hi =>
    rcases hi with ⟨rfl, _⟩ | ⟨rfl, _⟩ <;> exact .inr (by simp [Instr.wellFormed])
  | nop hi | halt hi | immediate _ _ hi | move _ _ hi | loadRam _ _ _ hi | loadIo _ _ _ _ hi
  | storeRam _ _ _ hi | storeIo _ _ _ hi | compare _ _ hi =>
    subst hi; exact .inr (by simp [Instr.wellFormed])

theorem exec_of_not_wellFormed {i : Instr} (hw : i.wellFormed = false) (s : State) :
    exec i s = .next (setRunState (.faulted .invalidOpcode) s) := by
  obtain ⟨t, ht, he⟩ := exec_effect i s
  rcases he.invalid_or_wellFormed with ⟨_, rfl⟩ | ⟨hwf, _⟩
  · exact ht
  · rw [hw] at hwf; cases hwf

theorem ExecEffect.faulted_invalidOpcode_iff {i : Instr} {s t : State} (h : ExecEffect i s t) :
    t.runState = .faulted .invalidOpcode ↔ i.wellFormed = false := by
  rcases h.invalid_or_wellFormed with ⟨hw, rfl⟩ | ⟨hw, hr⟩
  · simp [hw]
  · simp [hw, hr]

/-- Settles O7: the illegal words are those validation refuses, and an instruction faults so exactly if it is refused. -/
theorem invalidOpcodeExactlyOnIllegalWords : Obligations.InvalidOpcodeExactlyOnIllegalWords := by
  intro w s
  have hwf := wellFormed_decode_eq_false_iff w
  obtain ⟨t, ht, he⟩ := exec_effect (decode w) s
  exact ⟨validFields_splitWord_eq_false_iff w, hwf, fun hw => exec_of_not_wellFormed (hwf.2 hw) s,
    t, ht, he.faulted_invalidOpcode_iff.trans hwf⟩

end Sys2Proof.Machine
end

section
/-! PROOFS. What one step does, by the branches of the cycle (R80 to R84), and from that the step limit (R81, R163), the
terminal states (R91), PC after a cycle (R89), faulting cycles (R88) and `run()` (R92). -/

namespace Sys2Proof.Machine

/-! ### One step, branch by branch -/

theorem step_of_terminal {s : State} (h : Terminal s) : step s = .next s := by
  rcases cycleFront_cases s with ⟨_, e⟩ | ⟨hr, _⟩ | ⟨hr, _⟩ | ⟨_, hr, _⟩
  · rw [step, e]
  all_goals exact absurd hr h

theorem step_of_limit_reached {s : State} (hr : s.runState = .running)
    (hl : stepLimitReached s = true) :
    step s = .next (setRunState (.faulted .stepLimitExceeded) s) := by
  simp [step, cycleFront, hr, hl]

/-- A cycle that fetches executes the decoded word in the state its fetch left (R83, R84). -/
theorem step_of_fetch {s : State} {w : Word} (hr : s.runState = .running)
    (hl : stepLimitReached s = false) (hf : fetchRead s.pc s = some w) :
    step s = exec (decode w) (latchFetched w (countStep s)) := by
  have hc : fetchRead s.pc (countStep s) = some w := hf
  simp [step, cycleFront, hr, hl, hc]

/-- The effects a step can have, each with the condition of its branch of the cycle (R80). -/
inductive StepEffect (s : State) : State → Prop
  /-- A terminal state stays as it is (R91). -/
  | terminal (h : Terminal s) : StepEffect s s
  /-- The step limit stops the cycle before its fetch (R81). -/
  | limit (hr : s.runState = .running) (hl : stepLimitReached s = true) :
      StepEffect s (setRunState (.faulted .stepLimitExceeded) s)
  /-- The fetch faults (R82). -/
  | fetchFault (hr : s.runState = .running) (hl : stepLimitReached s = false)
      (hf : fetchRead s.pc s = none) :
      StepEffect s (setRunState (.faulted .memoryOutOfBounds) (countStep s))
  /-- The fetched instruction executes, with one of its effects (R83, R84). -/
  | execute {w : Word} {t : State} (hr : s.runState = .running) (hl : stepLimitReached s = false)
      (hf : fetchRead s.pc s = some w)
      (he : ExecEffect (decode w) (latchFetched w (countStep s)) t) : StepEffect s t

/-- A step answers a next state, by the effect of its branch. -/
theorem step_effect (s : State) : ∃ t, step s = .next t ∧ StepEffect s t := by
  rcases cycleFront_cases s with ⟨h, _⟩ | ⟨hr, hl, _⟩ | ⟨hr, hl, hf, _⟩ | ⟨w, hr, hl, hf, _⟩
  · exact ⟨s, step_of_terminal h, .terminal h⟩
  · exact ⟨_, step_of_limit_reached hr hl, .limit hr hl⟩
  · exact ⟨_, step_of_fetch_fault hr hl hf, .fetchFault hr hl hf⟩
  · obtain ⟨t, ht, he⟩ := exec_effect (decode w) (latchFetched w (countStep s))
    exact ⟨t, (step_of_fetch hr hl hf).trans ht, .execute hr hl hf he⟩

/-- The effect behind a step's answer. -/
theorem effect_of_step {s t : State} (h : step s = .next t) : StepEffect s t := by
  obtain ⟨u, hu, he⟩ := step_effect s
  rw [hu] at h
  cases h
  exact he

/-- Settles O27: the step is `step_of_fetch`, and the advance of PC is an addition modulo 2^16. -/
theorem stepRunsTheFetchedInstruction : Obligations.StepRunsTheFetchedInstruction := by
  intro s w hr hl hf
  have hpc : (s.pc + 1#16).toNat = (s.pc.toNat + 1) % 65536 := by simp [BitVec.toNat_add]
  exact ⟨s.pc + 1#16, hpc, step_of_fetch hr hl hf⟩

/-! ### Several steps -/

/-- What every step keeps holds after any number of steps. -/
theorem coreRun_invariant {P : State → Prop} (hstep : ∀ s t, P s → step s = .next t → P t)
    {k : Nat} {s t : State} (hs : P s) (h : Host.Core.run Sys2Proof.core k s = .next t) : P t := by
  induction k generalizing s with
  | zero =>
    rw [coreRun_zero] at h
    cases h
    exact hs
  | succ k ih =>
    obtain ⟨u, hu, _⟩ := step_effect s
    rw [coreRun_succ_of_next hu] at h
    exact ih (hstep s u hs hu) h

theorem coreRun_one {s t : State} (h : step s = .next t) :
    Host.Core.run Sys2Proof.core 1 s = .next t :=
  coreRun_succ_of_next h 0

/-! ### The step limit -/

theorem ExecEffect.steps_eq {i : Instr} {s t : State} (h : ExecEffect i s t) :
    t.steps = s.steps := by
  cases h <;> simp

theorem ExecEffect.runState_ne_stepLimitExceeded {i : Instr} {s t : State}
    (h : ExecEffect i s t) : t.runState ≠ .faulted .stepLimitExceeded := by
  cases h <;> simp

/-- The step limit is `limit` and the counter has not passed it. -/
def WithinLimit (limit : Nat) (s : State) : Prop :=
  s.params.stepLimit = some limit ∧ s.steps ≤ limit

/-- A cycle counts itself only where the limit is not reached yet. -/
theorem withinLimit_countStep {limit : Nat} {s : State} (h : WithinLimit limit s)
    (hl : stepLimitReached s = false) : WithinLimit limit (countStep s) := by
  obtain ⟨hlimit, _⟩ := h
  have hlt : s.steps < limit := by simpa [stepLimitReached, hlimit] using hl
  exact ⟨hlimit, hlt⟩

theorem withinLimit_step {limit : Nat} (s t : State) (h : WithinLimit limit s)
    (hst : step s = .next t) : WithinLimit limit t := by
  cases effect_of_step hst with
  | terminal => exact h
  | limit => exact h
  | fetchFault _ hl => exact withinLimit_countStep h hl
  | execute _ hl _ he =>
    obtain ⟨hlimit, hle⟩ := withinLimit_countStep h hl
    exact ⟨by rw [he.params_eq]; exact hlimit, by rw [he.steps_eq]; exact hle⟩

/-- Settles O29: only the branch of a reached limit raises the fault, and no step takes the counter past the limit. -/
theorem stepLimitStopsBeforeTheFetch : Obligations.StepLimitStopsBeforeTheFetch := by
  refine ⟨?_, ?_, ?_⟩
  · intro s limit hr hlimit hle
    exact step_of_limit_reached hr ((stepLimitReached_iff s).2 ⟨limit, hlimit, hle⟩)
  · intro s t hr hbelow hst
    cases effect_of_step hst with
    | terminal h => exact absurd hr h
    | limit _ hl =>
      obtain ⟨limit, hlimit, hle⟩ := (stepLimitReached_iff s).1 hl
      exact absurd (hbelow limit hlimit) (Nat.not_lt.2 hle)
    | fetchFault => simp
    | execute _ _ _ he => exact he.runState_ne_stepLimitExceeded
  · intro s t limit k hlimit hle hrun
    exact (coreRun_invariant withinLimit_step ⟨hlimit, hle⟩ hrun).2

/-! ### Terminal states -/

theorem terminal_or_running (s : State) : Terminal s ∨ s.runState = .running :=
  (Decidable.em (s.runState = .running)).symm

theorem coreRun_of_terminal {s : State} (h : Terminal s) (k : Nat) :
    Host.Core.run Sys2Proof.core k s = .next s := by
  induction k with
  | zero => exact coreRun_zero s
  | succ k ih => exact (coreRun_succ_of_next (step_of_terminal h) k).trans ih

theorem hostStep_of_terminal {s : State} (h : Terminal s) : hostStep s = some (outcomeOf s, s) :=
  hostStep_of_next (step_of_terminal h)

/-- Settles O31: a step of a terminal state is the identity, and its outcome names that state. -/
theorem terminalStatesAreForEver : Obligations.TerminalStatesAreForEver := by
  refine ⟨fun s k h => coreRun_of_terminal h k, ?_, ?_⟩
  · intro s hr
    rw [hostStep_of_terminal (by simp [Terminal, hr]), outcomeOf, hr]
  · intro s k hr
    rw [hostStep_of_terminal (by simp [Terminal, hr]), outcomeOf, hr]

/-! ### PC at the end of a cycle -/

/-- With `z` as the Z flag, `i` is a jump by the register `r` and the offset `imm` that is taken (R140 to R143). -/
def JumpTaken (i : Instr) (z : Bool) (r : Reg) (imm : Nibble) : Prop :=
  i = .jump (fieldOfReg r) imm
    ∨ (i = .jumpIfZero (fieldOfReg r) imm ∧ z = true)
    ∨ (i = .jumpIfNotZero (fieldOfReg r) imm ∧ z = false)

theorem exec_of_jumpTaken {i : Instr} {s : State} {r : Reg} {imm : Nibble}
    (h : JumpTaken i s.z r imm) :
    exec i s = .next (setRunState .running (setPc (baseOffset (readReg s r) imm) s)) := by
  rcases h with rfl | ⟨rfl, hz⟩ | ⟨rfl, hz⟩
  · simp [exec, execJump, jumpWhen, endCycle_eq]
  · simp [exec, execJumpIfZero, jumpWhen, endCycle_eq, hz]
  · simp [exec, execJumpIfNotZero, jumpWhen, endCycle_eq, hz]

/-- Nothing but a taken jump writes PC. -/
theorem ExecEffect.pc_eq_of_not_jumpTaken {i : Instr} {s t : State} (h : ExecEffect i s t)
    (hj : ∀ (r : Reg) (imm : Nibble), ¬ JumpTaken i s.z r imm) : t.pc = s.pc := by
  cases h with
  | taken r imm hi => exact absurd hi (hj r imm)
  | _ => simp

/-- Settles O32: the fetch changes neither the base register nor Z, and only a taken jump writes the advanced PC. -/
theorem pcAtTheEndOfACycle : Obligations.PcAtTheEndOfACycle := by
  intro s t w hr hl hf hst
  rw [step_of_fetch hr hl hf] at hst
  refine ⟨?_, ?_⟩
  · intro r imm hj
    have hj' : JumpTaken (decode w) (latchFetched w (countStep s)).z r imm := hj
    rw [exec_of_jumpTaken hj'] at hst
    cases hst
    simp
  · intro hj
    exact (effect_of_exec hst).pc_eq_of_not_jumpTaken hj

/-! ### Faulting cycles -/

/-- An instruction that faults changes the run state alone (R88). -/
theorem ExecEffect.eq_of_faulted {i : Instr} {s t : State} {k : Fault} (h : ExecEffect i s t)
    (hk : t.runState = .faulted k) : t = setRunState (.faulted k) s := by
  cases h with
  | invalid | outOfBounds => cases hk; rfl
  | _ => cases hk

/-- A faulting cycle leaves the state as it stood before it, after counting the step or after the fetch, but for the run
state. -/
theorem StepEffect.eq_of_faulted {s t : State} {k : Fault} (h : StepEffect s t)
    (hr : s.runState = .running) (hk : t.runState = .faulted k) :
    t = setRunState (.faulted k) s ∨ t = setRunState (.faulted k) (countStep s)
      ∨ ∃ w, t = setRunState (.faulted k) (latchFetched w (countStep s)) := by
  cases h with
  | terminal hs => exact absurd hr hs
  | limit => cases hk; exact .inl rfl
  | fetchFault => cases hk; exact .inr (.inl rfl)
  | execute _ _ _ he => exact .inr (.inr ⟨_, he.eq_of_faulted hk⟩)

/-- Settles O37: of the three states a fault can leave, none differs in what the statement names, but for PC. -/
theorem faultingCycleHasNoOtherEffect : Obligations.FaultingCycleHasNoOtherEffect := by
  intro s t k hr hst hk
  rcases (effect_of_step hst).eq_of_faulted hr hk with rfl | rfl | ⟨w, rfl⟩ <;>
    simp [SameRegs, SameFlags, SameMemory]

/-! ### `run()` -/

theorem outcomeOf_eq_cont_iff (s : State) : outcomeOf s = .cont ↔ s.runState = .running := by
  unfold outcomeOf
  cases s.runState <;> simp

theorem hostRun_succ_of_running {s t : State} (h : step s = .next t) (ht : t.runState = .running)
    (fuel : Nat) : hostRun (fuel + 1) s = hostRun fuel t := by
  rw [hostRun, hostStep_of_next h, (outcomeOf_eq_cont_iff t).2 ht]

theorem hostRun_succ_of_terminal {s t : State} (h : step s = .next t) (ht : Terminal t)
    (fuel : Nat) : hostRun (fuel + 1) s = some (outcomeOf t, t) := by
  have ho : outcomeOf t ≠ .cont := mt (outcomeOf_eq_cont_iff t).1 ht
  rw [hostRun, hostStep_of_next h]
  cases hc : outcomeOf t with
  | cont => exact absurd hc ho
  | halt | fault => rfl

/-- What `run()` returns is a terminal state that some number of steps reaches, with its outcome. -/
theorem terminal_of_hostRun {fuel : Nat} {s t : State} {o : StepOutcome}
    (h : hostRun fuel s = some (o, t)) :
    Terminal t ∧ o = outcomeOf t
      ∧ ∃ k, 1 ≤ k ∧ k ≤ fuel ∧ Host.Core.run Sys2Proof.core k s = .next t := by
  induction fuel generalizing s with
  | zero => cases h
  | succ fuel ih =>
    obtain ⟨u, hu, _⟩ := step_effect s
    rcases terminal_or_running u with ht | hr
    · rw [hostRun_succ_of_terminal hu ht] at h
      cases h
      exact ⟨ht, rfl, 1, Nat.le_refl 1, Nat.le_add_left 1 fuel, coreRun_one hu⟩
    · rw [hostRun_succ_of_running hu hr] at h
      obtain ⟨ht, ho, k, _, hk, hrun⟩ := ih h
      exact ⟨ht, ho, k + 1, Nat.le_add_left 1 k, Nat.succ_le_succ hk,
        (coreRun_succ_of_next hu k).trans hrun⟩

/-- While `run()` has not returned, every state reached so far is Running. -/
theorem running_of_hostRun_eq_none {fuel : Nat} {s : State} (h : hostRun fuel s = none) {k : Nat}
    (hk : k < fuel) :
    ∃ t, Host.Core.run Sys2Proof.core (k + 1) s = .next t ∧ t.runState = .running := by
  induction fuel generalizing s k with
  | zero => cases hk
  | succ fuel ih =>
    obtain ⟨u, hu, _⟩ := step_effect s
    rcases terminal_or_running u with ht | hr
    · rw [hostRun_succ_of_terminal hu ht] at h
      cases h
    · rw [hostRun_succ_of_running hu hr] at h
      cases k with
      | zero => exact ⟨u, coreRun_one hu, hr⟩
      | succ k =>
        obtain ⟨t, hrun, ht⟩ := ih h (Nat.lt_of_succ_lt_succ hk)
        exact ⟨t, (coreRun_succ_of_next hu (k + 1)).trans hrun, ht⟩

/-- Settles O43: the state `run()` returns is terminal, so its outcome is not Continue and names that state. -/
theorem runReturnsATerminalOutcome : Obligations.RunReturnsATerminalOutcome := by
  refine ⟨?_, ?_, ?_⟩
  · intro fuel s t o h
    obtain ⟨ht, rfl, hreached⟩ := terminal_of_hostRun h
    exact ⟨mt (outcomeOf_eq_cont_iff t).1 ht, (nextState_outcomeOf t).symm, hreached⟩
  · intro fuel s ht
    exact hostRun_succ_of_terminal (step_of_terminal ht) ht fuel
  · intro fuel s h k hk hle
    obtain ⟨j, rfl⟩ := Nat.exists_eq_succ_of_ne_zero (Nat.ne_of_gt hk)
    obtain ⟨t, hrun, ht⟩ := running_of_hostRun_eq_none h hle
    exact ⟨t, hrun, not_not_intro ht⟩

end Sys2Proof.Machine
end

section
/-! PROOFS. The arithmetic and logic family (R100 to R108): the shared meaning of the five that write a register and that of
CMP, with result, flags and frame, said once each; and from them every instruction of the family. -/

namespace Sys2Proof.Machine

/-! ### Words -/

/-- The wrapped difference as a natural number, with no truncation (R102, R106). -/
theorem toNat_sub_wrapped (a b : Word) : (a - b).toNat = (a.toNat + 65536 - b.toNat) % 65536 := by
  rw [BitVec.toNat_sub]
  omega

/-- The flags of the result 0. -/
theorem flags_of_zero {t : State} (h : FlagsOf 0x0000#16 t) : t.z = true ∧ t.n = false := by
  obtain ⟨hz, hn⟩ := h
  exact ⟨hz.2 rfl, by simpa using hn⟩

/-! ### The five that write a register -/

theorem aluWrite_invalid {f : Word → Word → Word} {rd rs : Nibble} {s : State}
    (h : 4 ≤ rd.toNat ∨ 4 ≤ rs.toNat) :
    aluWrite f rd rs s = .next (setRunState (.faulted .invalidOpcode) s) :=
  withReg_withReg_invalid h s _

/-- The flags that follow a register write stand outside the frame of that write. -/
theorem frameReg_setZN_writeReg (d : Reg) (v : Word) (s : State) :
    FrameReg d s (setRunState .running (setZN v (writeReg d v s))) := by
  obtain ⟨hregs, hpc, hrun, hhistory, hmem, houtside⟩ := frameReg_writeReg d v s
  exact ⟨fun q hq => by simpa using hregs q hq, hpc, hrun, hhistory, hmem, houtside⟩

/-- R100 with legal fields: the result in Rd, the flags of what Rd then holds, and the frame. -/
theorem aluWrite_fieldOfReg (f : Word → Word → Word) (d r : Reg) (s : State) :
    ∃ t, aluWrite f (fieldOfReg d) (fieldOfReg r) s = .next t
      ∧ readReg t d = f (readReg s d) (readReg s r)
      ∧ FlagsOf (readReg t d) t ∧ FrameReg d s t := by
  refine ⟨_, by simp [aluWrite, endCycle_eq], by simp, ?_,
    frameReg_setZN_writeReg d (f (readReg s d) (readReg s r)) s⟩
  rw [readReg_setRunState, readReg_setZN, readReg_writeReg_same]
  exact flagsOf_of_setZN rfl rfl

/-- Settles O9: the shared meaning at the sum. -/
theorem addGivesWrappedSum : Obligations.AddGivesWrappedSum := by
  refine ⟨fun _ _ _ => decode_joinFields _, fun _ _ _ => aluWrite_invalid, fun d r s => ?_⟩
  obtain ⟨t, ht, hval, hflags, hframe⟩ := aluWrite_fieldOfReg (fun a b => a + b) d r s
  exact ⟨t, ht, by rw [hval, BitVec.toNat_add], hflags, hframe⟩

/-- Settles O10: the shared meaning at the difference. -/
theorem subGivesWrappedDifference : Obligations.SubGivesWrappedDifference := by
  refine ⟨fun _ _ _ => decode_joinFields _, fun _ _ _ => aluWrite_invalid, fun d r s => ?_⟩
  obtain ⟨t, ht, hval, hflags, hframe⟩ := aluWrite_fieldOfReg (fun a b => a - b) d r s
  exact ⟨t, ht, by rw [hval, toNat_sub_wrapped], hflags, hframe⟩

/-- Settles O11: the shared meaning at the conjunction, read bit by bit. -/
theorem andGivesBitwiseAnd : Obligations.AndGivesBitwiseAnd := by
  refine ⟨fun _ _ _ => decode_joinFields _, fun _ _ _ => aluWrite_invalid, fun d r s => ?_⟩
  obtain ⟨t, ht, hval, hflags, hframe⟩ := aluWrite_fieldOfReg (fun a b => a &&& b) d r s
  exact ⟨t, ht, fun j => by rw [hval, BitVec.getLsbD_and], hflags, hframe⟩

/-- Settles O12: the shared meaning at the disjunction, read bit by bit. -/
theorem orGivesBitwiseOr : Obligations.OrGivesBitwiseOr := by
  refine ⟨fun _ _ _ => decode_joinFields _, fun _ _ _ => aluWrite_invalid, fun d r s => ?_⟩
  obtain ⟨t, ht, hval, hflags, hframe⟩ := aluWrite_fieldOfReg (fun a b => a ||| b) d r s
  exact ⟨t, ht, fun j => by rw [hval, BitVec.getLsbD_or], hflags, hframe⟩

/-- Settles O13: the shared meaning at the exclusive or, read bit by bit. -/
theorem xorGivesBitwiseXor : Obligations.XorGivesBitwiseXor := by
  refine ⟨fun _ _ _ => decode_joinFields _, fun _ _ _ => aluWrite_invalid, fun d r s => ?_⟩
  obtain ⟨t, ht, hval, hflags, hframe⟩ := aluWrite_fieldOfReg (fun a b => a ^^^ b) d r s
  exact ⟨t, ht, fun j => by rw [hval, BitVec.getLsbD_xor], hflags, hframe⟩

/-! ### CMP -/

theorem exec_cmp_invalid {rd rs : Nibble} {s : State} (h : 4 ≤ rd.toNat ∨ 4 ≤ rs.toNat) :
    exec (.cmp rd rs) s = .next (setRunState (.faulted .invalidOpcode) s) :=
  withReg_withReg_invalid h s _

theorem exec_cmp_fieldOfReg (d r : Reg) (s : State) :
    exec (.cmp (fieldOfReg d) (fieldOfReg r)) s
      = .next (setRunState .running (setZN (readReg s d - readReg s r) s)) := by
  simp [exec, execCmp, aluCompare, endCycle_eq]

theorem flagsOf_cmp (d r : Reg) (s : State) :
    FlagsOf (readReg s d - readReg s r)
      (setRunState .running (setZN (readReg s d - readReg s r) s)) :=
  flagsOf_of_setZN rfl rfl

/-- R0 = 0 is below R1 = 0x8001 unsigned, and their wrapped difference 0x7FFF has bit 15 clear. -/
def unsignedBelowCore : State := { State.reset with r1 := 0x8001#16 }

/-- Settles O14: the flags of the wrapped difference, the frame, and a state in which N misses an unsigned less-than. -/
theorem cmpSetsFlagsOnly : Obligations.CmpSetsFlagsOnly := by
  refine ⟨fun _ _ _ => decode_joinFields _, fun _ _ _ => exec_cmp_invalid, fun d r s => ?_, ?_⟩
  · obtain ⟨hz, hn⟩ := flagsOf_cmp d r s
    rw [toNat_sub_wrapped] at hn
    exact ⟨_, exec_cmp_fieldOfReg d r s, hz.trans sub_eq_zero, hn, fun q => by simp, rfl, rfl, rfl,
      sameMemory_of_mem_eq rfl, rfl, rfl, rfl⟩
  · exact ⟨unsignedBelowCore, _, exec_cmp_fieldOfReg .r0 .r1 _, by decide, by decide⟩

/-! ### The same register as source and destination -/

/-- An operation that sends equal operands to 0 clears the register, sets Z and clears N. -/
theorem aluWrite_same_of_zero {f : Word → Word → Word} (hf : ∀ a, f a a = 0x0000#16) (d : Reg)
    (s : State) : ∃ t, aluWrite f (fieldOfReg d) (fieldOfReg d) s = .next t
      ∧ readReg t d = 0x0000#16 ∧ t.z = true ∧ t.n = false := by
  obtain ⟨t, ht, hval, hflags, _⟩ := aluWrite_fieldOfReg f d d s
  rw [hf] at hval
  rw [hval] at hflags
  exact ⟨t, ht, hval, flags_of_zero hflags⟩

/-- An idempotent operation leaves the register and sets the flags from it. -/
theorem aluWrite_same_of_idempotent {f : Word → Word → Word} (hf : ∀ a, f a a = a) (d : Reg)
    (s : State) : ∃ t, aluWrite f (fieldOfReg d) (fieldOfReg d) s = .next t
      ∧ readReg t d = readReg s d ∧ FlagsOf (readReg s d) t := by
  obtain ⟨t, ht, hval, hflags, _⟩ := aluWrite_fieldOfReg f d d s
  rw [hf] at hval
  rw [hval] at hflags
  exact ⟨t, ht, hval, hflags⟩

/-- ADD of a register to itself doubles it modulo 2^16. -/
theorem exec_add_same (d : Reg) (s : State) :
    ∃ t, exec (.add (fieldOfReg d) (fieldOfReg d)) s = .next t
      ∧ (readReg t d).toNat = 2 * (readReg s d).toNat % 65536 := by
  obtain ⟨t, ht, hval, _, _⟩ := aluWrite_fieldOfReg (fun a b => a + b) d d s
  exact ⟨t, ht, by rw [hval, BitVec.toNat_add, two_mul]⟩

/-- CMP of a register with itself finds equality. -/
theorem exec_cmp_same (d : Reg) (s : State) :
    ∃ t, exec (.cmp (fieldOfReg d) (fieldOfReg d)) s = .next t ∧ t.z = true ∧ t.n = false := by
  have hflags := flagsOf_cmp d d s
  rw [BitVec.sub_self] at hflags
  exact ⟨_, by rw [exec_cmp_fieldOfReg, BitVec.sub_self], flags_of_zero hflags⟩

/-- Settles O15: SUB and XOR send equal operands to 0, AND and OR are idempotent. -/
theorem sameRegisterOperands : Obligations.SameRegisterOperands := fun d s =>
  ⟨exec_add_same d s, aluWrite_same_of_zero (fun _ => BitVec.sub_self _) d s,
    aluWrite_same_of_zero (fun _ => BitVec.xor_self) d s,
    aluWrite_same_of_idempotent (fun _ => BitVec.and_self) d s,
    aluWrite_same_of_idempotent (fun _ => BitVec.or_self) d s, exec_cmp_same d s⟩

end Sys2Proof.Machine
end

section
/-! PROOFS. Data movement beside LOAD's and STORE's own meaning: LOAD_IMM (R120), MOVE (R121), and the LOAD that follows a
STORE to the same address (R125). -/

namespace Sys2Proof.Machine

/-! ### LOAD_IMM -/

/-- Sign extension keeps the signed value of a field (R9). -/
theorem sext16_toInt (f : Nibble) : (sext16 f).toInt = f.toInt :=
  BitVec.toInt_signExtend_of_le (by decide)

theorem exec_loadImm_fieldOfReg (d : Reg) (imm : Nibble) (s : State) :
    exec (.loadImm (fieldOfReg d) imm) s
      = .next (setRunState .running (writeReg d (sext16 imm) s)) := by
  simp [exec, execLoadImm, endCycle_eq]

/-- Settles O16: validation of the one field, and a register write of the sign-extended immediate. -/
theorem loadImmLoadsSignedImmediate : Obligations.LoadImmLoadsSignedImmediate := by
  refine ⟨fun _ _ _ => decode_joinFields _, fun _ _ s h => withReg_invalid h s _, fun d imm s => ?_⟩
  refine ⟨_, exec_loadImm_fieldOfReg d imm s, ?_, sameFlags_writeReg d _ s, frameReg_writeReg d _ s⟩
  rw [readReg_setRunState, readReg_writeReg_same, sext16_toInt]

/-! ### MOVE -/

theorem exec_move_fieldOfReg (d r : Reg) (s : State) :
    exec (.move (fieldOfReg d) (fieldOfReg r)) s
      = .next (setRunState .running (writeReg d (readReg s r) s)) := by
  simp [exec, execMove, endCycle_eq]

/-- Settles O17: validation of the two fields, and a register write of the source's value. -/
theorem moveCopiesRegister : Obligations.MoveCopiesRegister := by
  refine ⟨fun _ _ _ => decode_joinFields _, fun _ _ s h => withReg_withReg_invalid h s _,
    fun d r s => ?_⟩
  refine ⟨_, exec_move_fieldOfReg d r s, ?_, sameFlags_writeReg d _ s, frameReg_writeReg d _ s⟩
  rw [readReg_setRunState, readReg_writeReg_same]

/-! ### LOAD after STORE -/

section
variable {q b : Reg} {k : Nibble} {s : State} {a : Word}

/-- Where a fetch answers a word, a LOAD of the same address returns it: both read the RAM region's storage. -/
theorem exec_load_of_fetchRead (ha : baseOffset (readReg s b) k = a) {w : Word}
    (h : fetchRead a s = some w) :
    ∃ t, exec (.load (fieldOfReg q) (fieldOfReg b) k) s = .next t ∧ readReg t q = w := by
  subst ha
  obtain ⟨hram, hw⟩ := (fetchRead_eq_some_iff _ _ _).1 h
  obtain ⟨hb, hi⟩ := (inRam_iff _ _).1 hram
  exact ⟨_, exec_load_of_memRead (memRead_ram hb hi), by simp [hw]⟩

/-- In the I/O region a LOAD returns what the input source supplies after the events so far (R44). -/
theorem exec_load_io (ha : baseOffset (readReg s b) k = a)
    (hb : inBounds s.params a.toNat = true) (hi : inIo s.params a.toNat = true) :
    ∃ t, exec (.load (fieldOfReg q) (fieldOfReg b) k) s = .next t
      ∧ readReg t q = Config.input s.params.inputSource s.history a := by
  subst ha
  exact ⟨_, exec_load_of_memRead (memRead_io hb hi), by simp⟩

end

/-- Settles O20: in RAM a LOAD finds what a fetch finds, which is the stored word until the next STORE there; in the I/O
region it draws from the input source after the write's event. -/
theorem storeThenLoadReturnsTheWord : Obligations.StoreThenLoadReturnsTheWord := by
  refine ⟨fun d r imm s hram => ?_, fun d r imm s hlt hi => ?_⟩
  · obtain ⟨t, hstore, hfetch, _⟩ := storeIsSeenByEveryLaterFetch d r imm s hram
    exact ⟨t, hstore, fun cycles u hcycles _ _ _ ha =>
      exec_load_of_fetchRead ha (hfetch cycles u hcycles)⟩
  · have hb := (inBounds_iff _ _).2 hlt
    exact ⟨_, exec_store_of_memWrite (memWrite_io _ hb hi), fun _ _ _ ha => exec_load_io ha hb hi⟩

end Sys2Proof.Machine
end

section
/-! PROOFS. Control flow (R140 to R143): the target of a jump, the meaning that the three jumps share, said once with target,
frame and validation; and from it each of them. -/

namespace Sys2Proof.Machine

/-! ### The target -/

/-- The signed offset is added modulo 2^16 (R9, R140). -/
theorem baseOffset_toNat (base : Word) (imm : Nibble) :
    ((baseOffset base imm).toNat : Int) = (base.toNat + imm.toInt) % 65536 := by
  have hsigned := sext16_toInt imm
  rw [BitVec.toInt_eq_toNat_cond] at hsigned
  rw [baseOffset, BitVec.toNat_add, ← hsigned]
  split <;> omega

/-! ### The shared meaning -/

/-- What a jump leaves alone, taken or not: everything but PC, and the core keeps running (R140). -/
def FrameJump (s t : State) : Prop :=
  SameRegs s t ∧ SameFlags s t ∧ t.runState = .running ∧ t.history = s.history
    ∧ SameMemory s t ∧ SameOutside s t

/-- The state that continues after PC is written. -/
theorem frameJump_setPc (a : Word) (s : State) :
    FrameJump s (setRunState .running (setPc a s)) :=
  ⟨fun q => by simp, ⟨rfl, rfl⟩, rfl, rfl, sameMemory_of_mem_eq rfl, rfl, rfl, rfl⟩

/-- The state that continues as it is. -/
theorem frameJump_setRunState (s : State) : FrameJump s (setRunState .running s) :=
  ⟨fun q => by simp, ⟨rfl, rfl⟩, rfl, rfl, sameMemory_of_mem_eq rfl, rfl, rfl, rfl⟩

/-- The base register field is validated whether or not the jump is taken (R85). -/
theorem jumpWhen_invalid {taken : Bool} {rs imm : Nibble} {s : State} (h : 4 ≤ rs.toNat) :
    jumpWhen taken rs imm s = .next (setRunState (.faulted .invalidOpcode) s) :=
  withReg_invalid h s _

/-- R140 with a legal field: PC becomes the target or stays as the fetch left it, within the frame of a jump. -/
theorem jumpWhen_fieldOfReg (taken : Bool) (r : Reg) (imm : Nibble) (s : State) :
    ∃ t, jumpWhen taken (fieldOfReg r) imm s = .next t
      ∧ (taken = true → (t.pc.toNat : Int) = ((readReg s r).toNat + imm.toInt) % 65536)
      ∧ (taken = false → t.pc = s.pc) ∧ FrameJump s t := by
  cases taken with
  | true =>
    exact ⟨_, withReg_fieldOfReg r s _, fun _ => baseOffset_toNat _ imm, nofun, frameJump_setPc _ s⟩
  | false =>
    exact ⟨_, withReg_fieldOfReg r s _, nofun, fun _ => rfl, frameJump_setRunState s⟩

/-! ### The three jumps -/

/-- Settles O23: the shared meaning, always taken. -/
theorem jumpGoesToBaseOffset : Obligations.JumpGoesToBaseOffset := by
  refine ⟨fun _ _ _ => decode_joinFields _, fun _ _ _ => jumpWhen_invalid, fun r imm s => ?_⟩
  obtain ⟨t, ht, htarget, _, hframe⟩ := jumpWhen_fieldOfReg true r imm s
  exact ⟨t, ht, htarget rfl, hframe⟩

/-- Settles O24: the shared meaning, taken when Z is set. -/
theorem jumpIfZeroFollowsZ : Obligations.JumpIfZeroFollowsZ :=
  ⟨fun _ _ _ => decode_joinFields _, fun _ _ _ => jumpWhen_invalid,
    fun r imm s => jumpWhen_fieldOfReg s.z r imm s⟩

/-- Settles O25: the shared meaning, taken when Z is clear. -/
theorem jumpIfNotZeroFollowsNotZ : Obligations.JumpIfNotZeroFollowsNotZ := by
  refine ⟨fun _ _ _ => decode_joinFields _, fun _ _ _ => jumpWhen_invalid, fun r imm s => ?_⟩
  obtain ⟨t, ht, htaken, huntaken, hframe⟩ := jumpWhen_fieldOfReg (!s.z) r imm s
  exact ⟨t, ht, fun hz => htaken (by rw [hz]; rfl), fun hz => huntaken (by rw [hz]; rfl), hframe⟩

end Sys2Proof.Machine
end

section
/-! PROOFS. Control and the reserved opcode (R150 to R152): the words of one opcode, and the three instructions whose whole
effect is a run state, as an execution and as a cycle. -/

namespace Sys2Proof

/-! ### The words of an opcode -/

/-- A word whose top digit is `op` is a concatenation of `op` with three fields (R61, R64). -/
theorem exists_joinFields_of_opcode {w : Word} {op : Nibble} (h : w.toNat / 4096 = op.toNat) :
    ∃ rd rs imm, w = joinFields ⟨op, rd, rs, imm⟩ := by
  have hop : (splitWord w).op = op := BitVec.eq_of_toNat_eq ((splitWord_op_toNat w).trans h)
  subst hop
  exact ⟨_, _, _, (joinFields_splitWord w).symm⟩

/-- Every word of opcode 1 is a NOP, whatever its ignored fields hold (R150). -/
theorem decode_joinFields_nop (rd rs imm : Nibble) :
    decode (joinFields ⟨0x1#4, rd, rs, imm⟩) = .nop :=
  decode_joinFields _

/-- Every word of opcode 2 is a HALT, whatever its ignored fields hold (R151). -/
theorem decode_joinFields_halt (rd rs imm : Nibble) :
    decode (joinFields ⟨0x2#4, rd, rs, imm⟩) = .halt :=
  decode_joinFields _

/-- Every word of opcode 0 is the reserved instruction (R152). -/
theorem decode_joinFields_reserved (rd rs imm : Nibble) :
    decode (joinFields ⟨0x0#4, rd, rs, imm⟩) = .reserved :=
  decode_joinFields _

end Sys2Proof

namespace Sys2Proof.Machine

/-! ### Executing one of the three -/

theorem exec_nop (s : State) : exec .nop s = .next (setRunState .running s) := rfl

theorem exec_halt (s : State) : exec .halt s = .next (setRunState .halted s) := rfl

theorem exec_reserved (s : State) :
    exec .reserved s = .next (setRunState (.faulted .invalidOpcode) s) :=
  exec_of_not_wellFormed rfl s

/-! ### The whole cycle -/

/-- A cycle whose opcode stands for an instruction that only enters a run state: the fetch, and that run state. -/
theorem step_of_opcode_entering {op : Nibble} {i : Instr} {r : RunState}
    (hdecode : ∀ rd rs imm, decode (joinFields ⟨op, rd, rs, imm⟩) = i)
    (hexec : ∀ t, exec i t = .next (setRunState r t)) {s : State} {w : Word}
    (hr : s.runState = .running) (hl : stepLimitReached s = false)
    (hf : fetchRead s.pc s = some w) (hop : w.toNat / 4096 = op.toNat) :
    step s = .next (setRunState r (latchFetched w (countStep s))) := by
  obtain ⟨rd, rs, imm, rfl⟩ := exists_joinFields_of_opcode hop
  rw [step_of_fetch hr hl hf, hdecode, hexec]

/-- Entering the run state a core is in already changes nothing. -/
theorem setRunState_of_eq {r : RunState} {s : State} (h : s.runState = r) : setRunState r s = s := by
  subst h; rfl

/-- Settles O26: the opcode map, the three executions, and the cycle they share; a running core keeps running after a
NOP, so there the fetch is all that remains. -/
theorem controlWordsAndTheReservedOpcode : Obligations.ControlWordsAndTheReservedOpcode := by
  refine ⟨fun x y k => ⟨decode_joinFields_nop x y k, decode_joinFields_halt x y k,
    decode_joinFields_reserved x y k⟩, fun s => ⟨exec_nop s, exec_halt s, exec_reserved s⟩,
    fun s w hr hl hf => ⟨fun hop => ?_, fun hop => ?_, fun hop => ?_⟩⟩
  · have hrunning : (latchFetched w (countStep s)).runState = .running := hr
    have hstep := step_of_opcode_entering decode_joinFields_nop exec_nop hr hl hf hop
    rw [setRunState_of_eq hrunning] at hstep
    exact hstep
  · exact step_of_opcode_entering decode_joinFields_halt exec_halt hr hl hf hop
  · exact step_of_opcode_entering decode_joinFields_reserved exec_reserved hr hl hf hop

end Sys2Proof.Machine
end

section
/-! PROOFS. Which fault a cycle reports (R164): when an execution faults MemoryOutOfBounds (R162), and from that the order of
the faults over the branches of the cycle. -/

namespace Sys2Proof.Machine

/-! ### Data accesses outside memory -/

theorem exists_fieldOfReg_of_namesReg {f : Nibble} (h : namesReg f = true) :
    ∃ r, f = fieldOfReg r := by
  rw [namesReg_eq_isSome, Option.isSome_iff_exists] at h
  obtain ⟨r, hr⟩ := h
  exact ⟨r, (regOfField_eq_some_iff f r).1 hr⟩

/-- The fetch changes no register and no parameter, so a data access is outside memory before it exactly if after it. -/
theorem dataOutOfBounds_latchFetched (w v : Word) (s : State) :
    DataOutOfBounds w (latchFetched v (countStep s)) ↔ DataOutOfBounds w s := by
  simp [DataOutOfBounds]

/-- A LOAD or STORE whose fields are legal and whose address is outside memory faults (R123, R124). -/
theorem exec_of_dataOutOfBounds {w : Word} {s : State} (hw : (decode w).wellFormed = true)
    (h : DataOutOfBounds w s) :
    exec (decode w) s = .next (setRunState (.faulted .memoryOutOfBounds) s) := by
  obtain ⟨rd, rs, imm, r, hi, hrs, hout⟩ := h
  have hb := (inBounds_false_iff _ _).2 hout
  obtain rfl := (regOfField_eq_some_iff rs r).1 hrs
  rcases hi with hi | hi <;> rw [hi] at hw ⊢ <;>
    obtain ⟨d, rfl⟩ := exists_fieldOfReg_of_namesReg (Bool.and_eq_true_iff.1 hw).1
  · exact exec_load_oob hb
  · exact exec_store_oob hb

/-- Only a LOAD or STORE to an address outside memory ends in this fault. -/
theorem ExecEffect.dataOutOfBounds_of_faulted {w : Word} {s t : State}
    (h : ExecEffect (decode w) s t) (hk : t.runState = .faulted .memoryOutOfBounds) :
    DataOutOfBounds w s := by
  cases h with
  | outOfBounds d r imm hi hb =>
    exact ⟨_, _, imm, r, hi, regOfField_fieldOfReg r, (inBounds_false_iff _ _).1 hb⟩
  | _ => cases hk

/-- An execution that faults says why: the word is illegal, or its data access is outside memory (R161, R162). -/
theorem ExecEffect.illegal_or_dataOutOfBounds {w : Word} {s t : State} {k : Fault}
    (h : ExecEffect (decode w) s t) (hk : t.runState = .faulted k) :
    IllegalWord w ∨ DataOutOfBounds w s := by
  cases k with
  | invalidOpcode =>
    exact .inl ((wellFormed_decode_eq_false_iff w).1 (h.faulted_invalidOpcode_iff.1 hk))
  | memoryOutOfBounds => exact .inr (h.dataOutOfBounds_of_faulted hk)
  | stepLimitExceeded => exact absurd hk h.runState_ne_stepLimitExceeded

/-! ### The order of the faults -/

/-- Settles O38: each branch of the cycle has its fault, and an executing one faults for its word or its data access. -/
theorem faultPriority : Obligations.FaultPriority := by
  intro s hr
  obtain ⟨t, ht, he⟩ := step_effect s
  refine ⟨t, ht, ?_⟩
  cases he with
  | terminal h => exact absurd hr h
  | limit _ hl => simp [hl]
  | fetchFault _ hl hf => simp [hl, hf]
  | @execute w _ _ hl hf he =>
    have hwf := wellFormed_decode_eq_false_iff w
    have hdata := dataOutOfBounds_latchFetched w w s
    refine ⟨by simp [hl], by simp [hf], ?_, ?_, ?_⟩
    · intro w' _ hf' hill
      cases hf.symm.trans hf'
      exact he.faulted_invalidOpcode_iff.2 (hwf.2 hill)
    · intro w' _ hf' hlegal hd
      cases hf.symm.trans hf'
      have hw := Bool.of_not_eq_false fun e => hlegal (hwf.1 e)
      rw [step_of_fetch hr hl hf, exec_of_dataOutOfBounds hw (hdata.2 hd)] at ht
      cases ht
      rfl
    · intro w' _ hf' hlegal hd k hk
      cases hf.symm.trans hf'
      rcases he.illegal_or_dataOutOfBounds hk with hill | hout
      · exact hlegal hill
      · exact hd (hdata.1 hout)

end Sys2Proof.Machine
end

section
/-! PROOFS. The host's load (R193): when it is accepted, and what an accepted load writes and leaves unchanged. -/

namespace Sys2Proof.Machine

/-- The check of R193 is all that a load can be refused for: the words to write play no part beyond their number. -/
theorem hostLoad_ne_none_iff (a : Word) (ws : List Word) (s : State) :
    hostLoad a ws s ≠ none ↔
      a.toNat + ws.length ≤ s.params.memSize
        ∧ ∀ j : Nat, j < ws.length → inIo s.params (a.toNat + j) = false := by
  rw [Option.ne_none_iff_exists', ← clearOfIo_iff]
  constructor
  · rintro ⟨t, ht⟩
    obtain ⟨hfits, hclear, -⟩ := (hostLoad_eq_some_iff a ws s t).1 ht
    exact ⟨hfits, hclear⟩
  · rintro ⟨hfits, hclear⟩
    exact ⟨_, (hostLoad_eq_some_iff a ws s _).2 ⟨hfits, hclear, rfl⟩⟩

/-- Settles O49: an accepted load's state is the old one with the words written, and writing consecutive words is read
back inside their range and not seen outside it. -/
theorem hostLoadWritesTheWords : Obligations.HostLoadWritesTheWords := by
  intro a ws s
  refine ⟨hostLoad_ne_none_iff a ws s, fun t ht => ?_⟩
  obtain ⟨-, -, rfl⟩ := (hostLoad_eq_some_iff a ws s t).1 ht
  exact ⟨readStorage_writeWords_inside a.toNat ws s.mem,
    fun _ => readStorage_writeWords_outside ws s.mem, rfl⟩

end Sys2Proof.Machine
end

section
/-! PROOFS. The canonical memory (assumption 4) and the invariant CoreInv: what keeps it, said once for each update, and from
that reset (R33), every step (R80) and the host's load (R193). -/

namespace Sys2Proof.Machine

/-! ### The canonical memory -/

/-- A canonical list holds a byte other than 0 in its first cell, and nothing below it. -/
theorem memWfFrom_cons_iff (lo : Nat) (c : Host.Cell) (m : Memory) :
    memWfFrom lo (c :: m) = true ↔ lo ≤ c.1 ∧ c.2 ≠ 0x00#8 ∧ memWfFrom (c.1 + 1) m = true := by
  simp [memWfFrom, and_assoc]

/-- Of two canonical lists that read the same, the second does not start above the first. -/
theorem first_cell_le_of_readCell_eq {c d : Host.Cell} {m l : Memory} (hc : c.2 ≠ 0x00#8)
    (hl : memWfFrom (d.1 + 1) l = true)
    (h : ∀ k : Nat, readCell (c :: m) k = readCell (d :: l) k) : d.1 ≤ c.1 := by
  by_contra hlt
  have hfirst := h c.1
  rw [readCell_cons, if_pos rfl, readCell_cons, if_neg (by omega),
    readCell_below hl (by omega)] at hfirst
  exact hc hfirst

/-- Equal readings give equal lists, from any lower bound of the cell numbers. -/
theorem memory_ext_of_memWfFrom {lo : Nat} {m l : Memory} (hm : memWfFrom lo m = true)
    (hl : memWfFrom lo l = true) (h : ∀ k : Nat, readCell m k = readCell l k) : m = l := by
  induction m generalizing lo l with
  | nil =>
    cases l with
    | nil => rfl
    | cons d l =>
      obtain ⟨-, hd, -⟩ := (memWfFrom_cons_iff _ _ _).1 hl
      exact absurd (by simpa [readCell] using (h d.1).symm) hd
  | cons c m ih =>
    obtain ⟨-, hc, hm'⟩ := (memWfFrom_cons_iff _ _ _).1 hm
    cases l with
    | nil => exact absurd (by simpa [readCell] using h c.1) hc
    | cons d l =>
      obtain ⟨-, hd, hl'⟩ := (memWfFrom_cons_iff _ _ _).1 hl
      have hcell : c.1 = d.1 := Nat.le_antisymm
        (first_cell_le_of_readCell_eq hd hm' fun k => (h k).symm)
        (first_cell_le_of_readCell_eq hc hl' h)
      have hbyte : c.2 = d.2 := by simpa [readCell, hcell] using h c.1
      have htail : m = l := by
        refine ih hm' (hcell ▸ hl') fun k => ?_
        by_cases hk : c.1 = k
        · rw [readCell_below hm' (by omega), readCell_below hl' (by omega)]
        · simpa [readCell, hk, hcell ▸ hk] using h k
      rw [Prod.ext hcell hbyte, htail]

/-- Settles O47: the two lists agree cell by cell from the first one on. -/
theorem canonicalMemoryIsUnique : Obligations.CanonicalMemoryIsUnique :=
  fun _ _ hm hl h => memory_ext_of_memWfFrom hm hl h

/-- Writing a word again leaves the list as it is, not only what it reads as. -/
theorem writeStorage_writeStorage_same {m : Memory} (hm : m.wf = true) (a : Nat) (v : Word) :
    writeStorage a v (writeStorage a v m) = writeStorage a v m := by
  have hwf := Memory.wf_writeStorage hm a v
  refine canonicalMemoryIsUnique _ _ (Memory.wf_writeStorage hwf a v) hwf fun k => ?_
  simp only [writeStorage, readCell_writeCell]
  split_ifs <;> rfl

/-- Settles O22: the STORE changes neither its base nor its data register, so the second one writes the same word at the
same address, which a canonical memory already holds. -/
theorem ramStoreIsIdempotent : Obligations.RamStoreIsIdempotent := by
  intro d r imm s hm hram
  refine ⟨_, exec_store_ram hram, ?_⟩
  rw [exec_store_ram (by simpa using hram)]
  simp only [readReg_setRunState, readReg_setMem, setRunState_mem, setMem_mem,
    writeStorage_writeStorage_same hm]
  rfl

/-! ### What keeps the invariant -/

/-- The invariant does not look at the registers, the flags and the run state, and the counter may be any within the
limit. -/
theorem CoreInv.of_same {s t : State} (h : CoreInv s) (hp : t.params = s.params)
    (hm : t.mem = s.mem) (hh : t.history = s.history)
    (hs : ∀ limit : Nat, s.params.stepLimit = some limit → t.steps ≤ limit) : CoreInv t where
  paramsLegal := by rw [hp]; exact h.paramsLegal
  memCanonical := by rw [hm]; exact h.memCanonical
  ramOnly := by rw [hp, hm]; exact h.ramOnly
  eventsInIo := by rw [hp, hh]; exact h.eventsInIo
  readsDrawn := by rw [hp, hh]; exact h.readsDrawn
  stepsWithinLimit := by rw [hp]; exact hs

/-- What the executor writes beside memory and the history is nothing to the invariant. -/
theorem CoreInv.of_same_steps {s t : State} (h : CoreInv s) (hp : t.params = s.params)
    (hm : t.mem = s.mem) (hh : t.history = s.history) (hs : t.steps = s.steps) : CoreInv t :=
  h.of_same hp hm hh (by rw [hs]; exact h.stepsWithinLimit)

/-- A cycle below the limit may be counted (R81). -/
theorem coreInv_countStep {s : State} (h : CoreInv s) (hl : stepLimitReached s = false) :
    CoreInv (countStep s) := by
  refine h.of_same rfl rfl rfl fun limit hlimit => ?_
  exact (withinLimit_countStep ⟨hlimit, h.stepsWithinLimit limit hlimit⟩ hl).2

/-- A canonical memory with nothing outside the RAM region may replace the storage. -/
theorem coreInv_setMem {s : State} (h : CoreInv s) {m : Memory} (hm : m.wf = true)
    (hram : ∀ k : Nat, inRam s.params (k / 2) = false → readCell m k = readCell s.mem k) :
    CoreInv (setMem m s) where
  paramsLegal := h.paramsLegal
  memCanonical := hm
  ramOnly := fun k hk => (hram k hk).trans (h.ramOnly k hk)
  eventsInIo := h.eventsInIo
  readsDrawn := h.readsDrawn
  stepsWithinLimit := h.stepsWithinLimit

/-- A word may be written in the RAM region (R45). -/
theorem coreInv_writeStorage {s : State} (h : CoreInv s) {a : Nat}
    (ha : inRam s.params a = true) (v : Word) : CoreInv (setMem (writeStorage a v s.mem) s) := by
  refine coreInv_setMem h (Memory.wf_writeStorage h.memCanonical a v) fun k hk => ?_
  exact readCell_writeStorage_ne (fun e => by rw [e, ha] at hk; cases hk) v s.mem

/-- An access to the I/O region may be recorded, a read with the word INPUT supplies after the history before it (R44). -/
theorem coreInv_addEvent {s : State} (h : CoreInv s) {e : IoEvent}
    (hio : inIo s.params (eventAddress e).toNat = true)
    (hdrawn : ∀ a v : Word, e = .ioRead a v →
      v = Config.input s.params.inputSource s.history a) : CoreInv (addEvent e s) where
  paramsLegal := h.paramsLegal
  memCanonical := h.memCanonical
  ramOnly := h.ramOnly
  eventsInIo := by
    intro e' he'
    rcases List.mem_append.1 he' with hold | hnew
    · exact h.eventsInIo e' hold
    · rw [List.mem_singleton.1 hnew]; exact hio
  readsDrawn := by
    intro before after a v hsplit
    rcases List.eq_nil_or_concat' after with rfl | ⟨after', last, rfl⟩
    · obtain ⟨hbefore, hlast⟩ := List.append_inj' (hsplit : s.history ++ [e] = _) rfl
      rw [← hbefore]
      exact hdrawn a v (List.singleton_inj.1 hlast)
    · rw [← List.cons_append, ← List.append_assoc] at hsplit
      exact h.readsDrawn before after' a v (List.append_inj' hsplit rfl).1
  stepsWithinLimit := h.stepsWithinLimit

/-! ### Reset, steps and loads -/

theorem coreInv_init {p : Params} (hp : p.legal = true) : CoreInv (State.init p) where
  paramsLegal := hp
  memCanonical := rfl
  ramOnly := fun _ _ => rfl
  eventsInIo := by simp
  readsDrawn := by simp
  stepsWithinLimit := by simp

theorem stopExplained_of_running {s : State} (h : s.runState = .running) : StopExplained s := by
  rw [StopExplained, h]
  trivial

/-- Settles O2: a constructed core has an empty memory and history, has counted nothing and is running. -/
theorem resetMeetsTheInvariants : Obligations.ResetMeetsTheInvariants :=
  ⟨fun _ hp => ⟨coreInv_init hp, stopExplained_of_running rfl⟩, coreInv_init (by decide),
    stopExplained_of_running rfl⟩

/-- Executing an instruction keeps the invariant: a STORE writes RAM, an I/O access is recorded, and no other effect
reaches memory or the history. -/
theorem ExecEffect.coreInv {i : Instr} {s t : State} (h : ExecEffect i s t) (hs : CoreInv s) :
    CoreInv t := by
  cases h with
  | storeRam d r imm _ hb hi =>
    exact (coreInv_writeStorage hs ((inRam_iff _ _).2 ⟨hb, hi⟩) _).of_same_steps rfl rfl rfl rfl
  | storeIo d r imm _ _ hi => exact (coreInv_addEvent hs (e := .ioWrite _ _) hi (by simp)).of_same_steps rfl rfl rfl rfl
  | loadIo d r imm v _ _ hi hv =>
    have hevent : CoreInv (addEvent (.ioRead (baseOffset (readReg s r) imm) v) s) := by
      refine coreInv_addEvent hs hi fun a v' he => ?_
      cases he
      exact hv
    exact hevent.of_same_steps (by simp) (by simp) (by simp) (by simp)
  | _ => exact hs.of_same_steps (by simp) (by simp) (by simp) (by simp)

/-- Settles O40: a step counts itself below the limit only, and the rest is one instruction's effect. -/
theorem everyStepKeepsTheInvariant : Obligations.EveryStepKeepsTheInvariant := by
  intro s t hs hst
  cases effect_of_step hst with
  | terminal => exact hs
  | limit => exact hs.of_same_steps rfl rfl rfl rfl
  | fetchFault _ hl => exact (coreInv_countStep hs hl).of_same_steps rfl rfl rfl rfl
  | execute _ hl _ he => exact he.coreInv ((coreInv_countStep hs hl).of_same_steps rfl rfl rfl rfl)

/-- Settles O50: an accepted load's words all lie in the RAM region. -/
theorem hostLoadKeepsTheInvariant : Obligations.HostLoadKeepsTheInvariant := by
  intro a ws s t hs hload
  obtain ⟨hfits, hclear, rfl⟩ := (hostLoad_eq_some_iff a ws s t).1 hload
  refine coreInv_setMem hs (Memory.wf_writeWords hs.memCanonical _ ws) fun k hk => ?_
  refine readCell_writeWords_outside ws s.mem ?_
  by_contra hin
  obtain ⟨j, hj⟩ := Nat.exists_eq_add_of_le (show a.toNat ≤ k / 2 by omega)
  have hio := (clearOfIo_iff _ _ _).1 hclear j (by omega)
  have hb := (inBounds_iff s.params (k / 2)).2 (by omega)
  rw [(inRam_iff _ _).2 ⟨hb, hj ▸ hio⟩] at hk
  cases hk

end Sys2Proof.Machine
end

section
/-! PROOFS. Words of the spec and the signed immediate (R9, R65, R68), what one execution may write and which run state it
leaves (R86, R87), and from them what one step leaves in IR, the counter and the parameters (R7, R24, R25, R30), why a
stopped core has stopped (R161 to R163), and the end of every limited run (R81). -/

namespace Sys2Proof

/-- Settles O5: a concatenation splits into its fields, and an instruction's own fields stand for it. -/
theorem decodeOfEncodeIsTheInstruction : Obligations.DecodeOfEncodeIsTheInstruction := decode_encode

/-- Settles O3: eight closed words. -/
theorem wordsOfTheSpecDecode : Obligations.WordsOfTheSpecDecode := by
  unfold Obligations.WordsOfTheSpecDecode
  decide

end Sys2Proof

namespace Sys2Proof.Machine

/-! ### The signed immediate -/

theorem sext16_toNat (f : Nibble) :
    (sext16 f).toNat = if f.toNat ≤ 7 then f.toNat else f.toNat + 0xFFF0 := by
  revert f; decide

/-- Settles O8: extension keeps the signed value, which four bits bound, and the addition is modulo 2^16. -/
theorem signedOffsetArithmetic : Obligations.SignedOffsetArithmetic := by
  refine ⟨sext16_toNat, fun f => ?_, baseOffset_toNat⟩
  have hlow : -8 ≤ f.toInt := BitVec.le_toInt f
  have hhigh : f.toInt < 8 := BitVec.toInt_lt
  have hsame := sext16_toInt f
  omega

/-! ### What one execution leaves -/

/-- An execution halts exactly for HALT, and else it continues or faults for a field or an address (R87). -/
theorem ExecEffect.runState_cases {i : Instr} {s t : State} (h : ExecEffect i s t) :
    (i = .halt ∧ t.runState = .halted)
      ∨ (i ≠ .halt ∧ (t.runState = .running ∨ t.runState = .faulted .invalidOpcode
        ∨ t.runState = .faulted .memoryOutOfBounds)) := by
  cases h with
  | halt hi => exact .inl ⟨hi, rfl⟩
  | invalid hw => exact .inr ⟨(by rintro rfl; cases hw), .inr (.inl rfl)⟩
  | alu d r f hf => exact .inr ⟨(by rintro rfl; cases hf), .inl rfl⟩
  | outOfBounds d r imm hi => exact .inr ⟨(by rintro rfl; simp at hi), .inr (.inr rfl)⟩
  | taken r imm hi | untaken r imm hi => exact .inr ⟨(by rintro rfl; simp at hi), .inl rfl⟩
  | nop hi | immediate _ _ hi | move _ _ hi | loadRam _ _ _ hi | loadIo _ _ _ _ hi
  | storeRam _ _ _ hi | storeIo _ _ _ hi | compare _ _ hi =>
    exact .inr ⟨(by rintro rfl; cases hi), .inl rfl⟩

/-- Settles O33: the cases of the run state, for the one answer of an execution. -/
theorem haltedExactlyByHalt : Obligations.HaltedExactlyByHalt := by
  intro i s
  obtain ⟨t, ht, he⟩ := exec_effect i s
  refine ⟨t, ht, ?_⟩
  rcases he.runState_cases with ⟨hi, hr⟩ | ⟨hi, hr⟩
  · simp [hi, hr]
  · rcases hr with hr | hr | hr <;> simp [hi, hr]

/-- One register write and updates that touch no register write at most one register. -/
theorem ExecEffect.sameRegsBut {i : Instr} {s t : State} (h : ExecEffect i s t) :
    ∃ d : Reg, SameRegsBut d s t := by
  cases h with
  | immediate d | move d | loadRam d | loadIo d | alu d =>
    exact ⟨d, fun q hq => by simp [readReg_writeReg_ne hq]⟩
  | _ => exact ⟨.r0, fun q _ => by simp⟩

theorem ExecEffect.sameFlags {i : Instr} {s t : State} (h : ExecEffect i s t)
    (hi : writesFlags i = false) : SameFlags s t := by
  rcases h.flagEffect with ⟨v, hv, _⟩ | ⟨_, hsame⟩
  · rw [(flagResult_eq_none_iff i s).2 (.inl hi)] at hv
    cases hv
  · exact hsame

/-- An execution records at most one I/O event (R47). -/
theorem ExecEffect.history_cases {i : Instr} {s t : State} (h : ExecEffect i s t) :
    t.history = s.history ∨ ∃ e, t.history = s.history ++ [e] := by
  cases h with
  | loadIo | storeIo => exact .inr ⟨_, by simp only [setRunState_history, writeReg_history]; rfl⟩
  | _ => exact .inl (by simp)

theorem ExecEffect.ir_eq {i : Instr} {s t : State} (h : ExecEffect i s t) : t.ir = s.ir := by
  cases h <;> simp

/-- No execution writes IR, the step counter or the parameters. -/
theorem ExecEffect.sameOutside {i : Instr} {s t : State} (h : ExecEffect i s t) :
    SameOutside s t :=
  ⟨h.ir_eq, h.steps_eq, h.params_eq⟩

/-- Settles O34: the effect of the execution, seen at each part of the state. -/
theorem executorWriteBounds : Obligations.ExecutorWriteBounds := by
  intro i s t hst
  have he := effect_of_exec hst
  refine ⟨he.sameRegsBut, he.sameFlags, fun hj => ?_, fun hnone => ?_, fun a ha => ?_,
    he.history_cases, he.sameOutside⟩
  · refine he.pc_eq_of_not_jumpTaken fun r imm htaken => ?_
    obtain ⟨hjump, hzero, hnotZero⟩ := hj (fieldOfReg r) imm
    rcases htaken with h | ⟨h, _⟩ | ⟨h, _⟩
    · exact hjump h
    · exact hzero h
    · exact hnotZero h
  · rcases he.mem_cases with hm | ⟨b, v, hb, _⟩
    · exact sameMemory_of_mem_eq hm
    · rw [hnone] at hb; cases hb
  · rcases he.mem_cases with hm | ⟨b, v, hb, hm⟩
    · exact fun k _ => sameMemory_of_mem_eq hm k
    · cases ha.symm.trans hb
      exact fun k hk => by rw [hm, readCell_writeStorage_ne hk]

/-! ### What one step leaves -/

/-- Settles O28: the effect of a step has its answer. -/
theorem everyStepAnswersNext : Obligations.EveryStepAnswersNext := fun s =>
  let ⟨t, ht, _⟩ := step_effect s
  ⟨t, ht⟩

/-- Settles O39: neither the front of a cycle nor an execution writes the parameters. -/
theorem parametersNeverChange : Obligations.ParametersNeverChange := by
  intro s t hst
  cases effect_of_step hst with
  | execute _ _ _ he => exact he.params_eq
  | _ => rfl

/-- Settles O36: one case for each branch of the cycle, the conditions of the others being contradicted. -/
theorem irAndStepCountOfACycle : Obligations.IrAndStepCountOfACycle := by
  intro s
  obtain ⟨t, ht, he⟩ := step_effect s
  refine ⟨t, ht, ?_⟩
  cases he with
  | terminal h => exact ⟨fun _ => ⟨rfl, rfl, rfl⟩, fun hr => absurd hr h, fun _ hr => absurd hr h⟩
  | limit hr hl => simp [hl]
  | fetchFault hr hl hf => simp [Terminal, hr, hl, hf]
  | execute hr hl hf he => simp [Terminal, hr, hl, hf, he.ir_eq, he.steps_eq]

/-! ### Why a core has stopped -/

/-- A faulting execution leaves the registers, so the data access that was outside memory still is. -/
theorem dataOutOfBounds_setRunState (w : Word) (r : RunState) (s : State) :
    DataOutOfBounds w (setRunState r s) ↔ DataOutOfBounds w s := by
  simp [DataOutOfBounds]

/-- An execution of the word in IR leaves an explained state (R151, R161, R162). -/
theorem ExecEffect.stopExplained {w : Word} {s t : State} (h : ExecEffect (decode w) s t)
    (hw : s.ir = w) : StopExplained t := by
  subst hw
  rcases h.runState_cases with ⟨hi, hr⟩ | ⟨_, hr | hr | hr⟩ <;> rw [StopExplained, hr]
  · simpa [h.ir_eq] using hi
  · trivial
  · simpa [h.ir_eq, wellFormed_decode_eq_false_iff] using h.faulted_invalidOpcode_iff.1 hr
  · rw [h.eq_of_faulted hr]
    exact .inr ((dataOutOfBounds_setRunState _ _ s).2 (h.dataOutOfBounds_of_faulted hr))

/-- Settles O41: the two faults before the executor leave the condition they were raised for, and the executed word is the
one in IR. -/
theorem everyStopIsExplained : Obligations.EveryStopIsExplained := by
  intro s t hs hst
  cases effect_of_step hst with
  | terminal => exact hs
  | limit _ hl => exact (stepLimitReached_iff s).1 hl
  | fetchFault _ _ hf => exact .inl hf
  | execute _ _ _ he => exact he.stopExplained rfl

/-! ### The end of a limited run -/

/-- A running step either ends the run or is counted. -/
theorem StepEffect.terminal_or_counted {s t : State} (h : StepEffect s t) :
    Terminal t ∨ (stepLimitReached s = false ∧ t.steps = s.steps + 1) := by
  cases h with
  | terminal h => exact .inl h
  | limit => exact .inl (by simp [Terminal])
  | fetchFault => exact .inl (by simp [Terminal])
  | execute _ hl _ he => exact .inr ⟨hl, he.steps_eq⟩

/-- With at most `k` cycles left, one step more than those ends the run. -/
theorem exists_terminal_of_limit {limit : Nat} (k : Nat) {s : State}
    (hlimit : s.params.stepLimit = some limit) (hk : limit ≤ s.steps + k) :
    ∃ t, Host.Core.run Sys2Proof.core (k + 1) s = .next t ∧ Terminal t := by
  induction k generalizing s with
  | zero =>
    obtain ⟨t, ht, he⟩ := step_effect s
    refine ⟨t, coreRun_one ht, ?_⟩
    rcases he.terminal_or_counted with hterm | ⟨hl, _⟩
    · exact hterm
    · rw [(stepLimitReached_iff s).2 ⟨limit, hlimit, hk⟩] at hl
      cases hl
  | succ k ih =>
    obtain ⟨t, ht, he⟩ := step_effect s
    rw [coreRun_succ_of_next ht]
    rcases he.terminal_or_counted with hterm | ⟨_, hcount⟩
    · exact ⟨t, coreRun_of_terminal hterm _, hterm⟩
    · exact ih (by rw [parametersNeverChange s t ht, hlimit]) (by omega)

/-- Settles O42: the run ends by the count of the cycles left, and no step counts past the limit. -/
theorem stepLimitEndsEveryRun : Obligations.StepLimitEndsEveryRun := by
  intro s limit hlimit
  obtain ⟨t, ht, hterm⟩ := exists_terminal_of_limit (limit - s.steps) hlimit (by omega)
  exact ⟨t, ht, hterm, fun hs => (coreRun_invariant withinLimit_step ⟨hlimit, hs⟩ ht).2⟩

end Sys2Proof.Machine
end

section
/-! PROOFS. What cannot be learnt (R28, R30, R165). A relation between states that agree in all that a cycle reads, and that
every update of a cycle keeps, is kept by a whole step. Differing in N, differing in the step counter where there is no limit,
and differing in the input source where there is no I/O region are three such relations. -/

namespace Sys2Proof.Machine

/-! ### Relations that a step keeps -/

/-- Related states differ in nothing that a cycle reads: the first group of fields. Every update of a cycle keeps the
relation: the second. -/
structure Unobservable (R : State → State → Prop) : Prop where
  runState : ∀ {s t}, R s t → t.runState = s.runState
  limitReached : ∀ {s t}, R s t → stepLimitReached t = stepLimitReached s
  pc : ∀ {s t}, R s t → t.pc = s.pc
  zeroFlag : ∀ {s t}, R s t → t.z = s.z
  reg : ∀ {s t}, R s t → ∀ q, readReg t q = readReg s q
  mem : ∀ {s t}, R s t → t.mem = s.mem
  inBounds : ∀ {s t}, R s t → ∀ a, inBounds t.params a = inBounds s.params a
  inIo : ∀ {s t}, R s t → ∀ a, inIo t.params a = inIo s.params a
  input : ∀ {s t}, R s t → ∀ a : Word, Machine.inIo s.params a.toNat = true →
    Config.input t.params.inputSource t.history a = Config.input s.params.inputSource s.history a
  countStep : ∀ {s t}, R s t → R (countStep s) (countStep t)
  latchFetched : ∀ {s t}, R s t → ∀ w, R (latchFetched w s) (latchFetched w t)
  setRunState : ∀ {s t}, R s t → ∀ r, R (setRunState r s) (setRunState r t)
  writeReg : ∀ {s t}, R s t → ∀ d v, R (writeReg d v s) (writeReg d v t)
  setZN : ∀ {s t}, R s t → ∀ v, R (setZN v s) (setZN v t)
  setPc : ∀ {s t}, R s t → ∀ a, R (setPc a s) (setPc a t)
  setMem : ∀ {s t}, R s t → ∀ m, R (setMem m s) (setMem m t)
  addEvent : ∀ {s t}, R s t → ∀ e, R (addEvent e s) (addEvent e t)

/-- Both outcomes are next states, and the relation holds between them. -/
def RelatedNext (R : State → State → Prop) (o o' : Host.Outcome State Fault Refusal) : Prop :=
  ∃ t t', o = .next t ∧ o' = .next t' ∧ R t t'

namespace Unobservable

variable {R : State → State → Prop} {s t : State}

/-! ### The accesses -/

theorem fetch_eq (hR : Unobservable R) (h : R s t) : fetchRead t.pc t = fetchRead s.pc s := by
  simp only [fetchRead, hR.pc h, hR.mem h, hR.inBounds h, hR.inIo h]

/-- A read access answers the same word, or is out of bounds, in both states. -/
theorem memRead_related (hR : Unobservable R) (h : R s t) (a : Word) :
    (∃ v s' t', memRead a s = some (v, s') ∧ memRead a t = some (v, t') ∧ R s' t')
      ∨ (memRead a s = none ∧ memRead a t = none) := by
  have hb' := hR.inBounds h a.toNat
  have hi' := hR.inIo h a.toNat
  rcases region_cases s.params a.toNat with ⟨hb, hi⟩ | ⟨hb, hi⟩ | hb
  · refine .inl ⟨_, _, _, memRead_ram hb hi, ?_, h⟩
    rw [memRead_ram (hb'.trans hb) (hi'.trans hi), hR.mem h]
  · refine .inl ⟨_, _, _, memRead_io hb hi, ?_, hR.addEvent h _⟩
    rw [memRead_io (hb'.trans hb) (hi'.trans hi), hR.input h a hi]
  · exact .inr ⟨memRead_oob hb, memRead_oob (hb'.trans hb)⟩

/-- A write access succeeds, or is out of bounds, in both states. -/
theorem memWrite_related (hR : Unobservable R) (h : R s t) (a v : Word) :
    (∃ s' t', memWrite a v s = some s' ∧ memWrite a v t = some t' ∧ R s' t')
      ∨ (memWrite a v s = none ∧ memWrite a v t = none) := by
  have hb' := hR.inBounds h a.toNat
  have hi' := hR.inIo h a.toNat
  rcases region_cases s.params a.toNat with ⟨hb, hi⟩ | ⟨hb, hi⟩ | hb
  · refine .inl ⟨_, _, memWrite_ram v hb hi, memWrite_ram v (hb'.trans hb) (hi'.trans hi), ?_⟩
    rw [hR.mem h]
    exact hR.setMem h _
  · exact .inl ⟨_, _, memWrite_io v hb hi, memWrite_io v (hb'.trans hb) (hi'.trans hi),
      hR.addEvent h _⟩
  · exact .inr ⟨memWrite_oob v hb, memWrite_oob v (hb'.trans hb)⟩

/-! ### The execution of an instruction -/

theorem endCycle_related (hR : Unobservable R) (h : R s t) (o : StepOutcome) :
    RelatedNext R (endCycle o s) (endCycle o t) :=
  ⟨_, _, rfl, rfl, hR.setRunState h _⟩

/-- Validation looks at the field alone, and a refused field raises the same fault in both states. -/
theorem withReg_related (hR : Unobservable R) (h : R s t) (f : Nibble)
    {rule rule' : Reg → Host.Outcome State Fault Refusal}
    (hrule : ∀ r, RelatedNext R (rule r) (rule' r)) :
    RelatedNext R (withReg f s rule) (withReg f t rule') := by
  unfold withReg
  cases regOfField f with
  | some r => exact hrule r
  | none => exact hR.endCycle_related h _

theorem aluWrite_related (hR : Unobservable R) (h : R s t) (f : Word → Word → Word)
    (rd rs : Nibble) : RelatedNext R (aluWrite f rd rs s) (aluWrite f rd rs t) := by
  refine hR.withReg_related h rd fun d => hR.withReg_related h rs fun r => ?_
  simp only [hR.reg h]
  exact hR.endCycle_related (hR.setZN (hR.writeReg h _ _) _) _

theorem aluCompare_related (hR : Unobservable R) (h : R s t) (f : Word → Word → Word)
    (rd rs : Nibble) : RelatedNext R (aluCompare f rd rs s) (aluCompare f rd rs t) := by
  refine hR.withReg_related h rd fun d => hR.withReg_related h rs fun r => ?_
  simp only [hR.reg h]
  exact hR.endCycle_related (hR.setZN h _) _

theorem jumpWhen_related (hR : Unobservable R) (h : R s t) (taken : Bool) (rs imm : Nibble) :
    RelatedNext R (jumpWhen taken rs imm s) (jumpWhen taken rs imm t) := by
  refine hR.withReg_related h rs fun r => ?_
  rw [hR.reg h]
  cases taken with
  | true => exact hR.endCycle_related (hR.setPc h _) _
  | false => exact hR.endCycle_related h _

theorem execLoad_related (hR : Unobservable R) (h : R s t) (rd rs imm : Nibble) :
    RelatedNext R (execLoad rd rs imm s) (execLoad rd rs imm t) := by
  refine hR.withReg_related h rd fun d => hR.withReg_related h rs fun r => ?_
  rw [hR.reg h]
  rcases hR.memRead_related h (baseOffset (readReg s r) imm) with ⟨v, s', t', e, e', h'⟩ | ⟨e, e'⟩ <;>
    rw [e, e']
  · exact hR.endCycle_related (hR.writeReg h' _ _) _
  · exact hR.endCycle_related h _

theorem execStore_related (hR : Unobservable R) (h : R s t) (rd rs imm : Nibble) :
    RelatedNext R (execStore rd rs imm s) (execStore rd rs imm t) := by
  refine hR.withReg_related h rd fun d => hR.withReg_related h rs fun r => ?_
  rw [hR.reg h, hR.reg h]
  rcases hR.memWrite_related h (baseOffset (readReg s r) imm) (readReg s d) with
    ⟨s', t', e, e', h'⟩ | ⟨e, e'⟩ <;> rw [e, e']
  · exact hR.endCycle_related h' _
  · exact hR.endCycle_related h _

theorem exec_related (hR : Unobservable R) (h : R s t) (i : Instr) :
    RelatedNext R (exec i s) (exec i t) := by
  cases i with
  | reserved | nop | halt => exact hR.endCycle_related h _
  | loadImm rd imm =>
    exact hR.withReg_related h rd fun d => hR.endCycle_related (hR.writeReg h _ _) _
  | move rd rs =>
    refine hR.withReg_related h rd fun d => hR.withReg_related h rs fun r => ?_
    rw [hR.reg h]
    exact hR.endCycle_related (hR.writeReg h _ _) _
  | load rd rs imm => exact hR.execLoad_related h rd rs imm
  | store rd rs imm => exact hR.execStore_related h rd rs imm
  | add rd rs | sub rd rs | and rd rs | or rd rs | xor rd rs =>
    exact hR.aluWrite_related h _ rd rs
  | cmp rd rs => exact hR.aluCompare_related h _ rd rs
  | jump rs imm => exact hR.jumpWhen_related h _ rs imm
  | jumpIfZero rs imm =>
    rw [exec, exec, execJumpIfZero, execJumpIfZero, hR.zeroFlag h]
    exact hR.jumpWhen_related h _ rs imm
  | jumpIfNotZero rs imm =>
    rw [exec, exec, execJumpIfNotZero, execJumpIfNotZero, hR.zeroFlag h]
    exact hR.jumpWhen_related h _ rs imm

/-! ### The whole cycle -/

/-- Related states take the same branch of the cycle. -/
theorem step_related (hR : Unobservable R) (h : R s t) : RelatedNext R (step s) (step t) := by
  have hrun := hR.runState h
  have hlimit := hR.limitReached h
  have hfetch := hR.fetch_eq h
  obtain ⟨_, _, he⟩ := step_effect s
  cases he with
  | terminal hterm =>
    have hterm' : Terminal t := by rwa [Terminal, hrun]
    exact ⟨_, _, step_of_terminal hterm, step_of_terminal hterm', h⟩
  | limit hr hl =>
    exact ⟨_, _, step_of_limit_reached hr hl,
      step_of_limit_reached (hrun.trans hr) (hlimit.trans hl), hR.setRunState h _⟩
  | fetchFault hr hl hf =>
    exact ⟨_, _, step_of_fetch_fault hr hl hf,
      step_of_fetch_fault (hrun.trans hr) (hlimit.trans hl) (hfetch.trans hf),
      hR.setRunState (hR.countStep h) _⟩
  | execute hr hl hf _ =>
    rw [step_of_fetch hr hl hf,
      step_of_fetch (hrun.trans hr) (hlimit.trans hl) (hfetch.trans hf)]
    exact hR.exec_related (hR.latchFetched (hR.countStep h) _) _

/-- The step of the second state, where that of the first is known. -/
theorem exists_related_of_step (hR : Unobservable R) {s' : State} (h : R s s')
    (hst : step s = .next t) : ∃ t', step s' = .next t' ∧ R t t' := by
  obtain ⟨u, t', hu, ht', hrel⟩ := hR.step_related h
  rw [hst] at hu
  cases hu
  exact ⟨t', ht', hrel⟩

end Unobservable

/-! ### N -/

/-- The states differ in N at most. -/
def DifferInN (s t : State) : Prop := ∃ b : Bool, t = { s with n := b }

/-- No check of a cycle reads N, and setZN writes it the same in both states. -/
theorem unobservable_differInN : Unobservable DifferInN where
  runState := by rintro s _ ⟨b, rfl⟩; rfl
  limitReached := by rintro s _ ⟨b, rfl⟩; rfl
  pc := by rintro s _ ⟨b, rfl⟩; rfl
  zeroFlag := by rintro s _ ⟨b, rfl⟩; rfl
  reg := by rintro s _ ⟨b, rfl⟩ q; cases q <;> rfl
  mem := by rintro s _ ⟨b, rfl⟩; rfl
  inBounds := by rintro s _ ⟨b, rfl⟩ a; rfl
  inIo := by rintro s _ ⟨b, rfl⟩ a; rfl
  input := by rintro s _ ⟨b, rfl⟩ a _; rfl
  countStep := by rintro s _ ⟨b, rfl⟩; exact ⟨b, rfl⟩
  latchFetched := by rintro s _ ⟨b, rfl⟩ w; exact ⟨b, rfl⟩
  setRunState := by rintro s _ ⟨b, rfl⟩ r; exact ⟨b, rfl⟩
  writeReg := by rintro s _ ⟨b, rfl⟩ d v; exact ⟨b, by cases d <;> rfl⟩
  setZN := by rintro s _ ⟨b, rfl⟩ v; exact ⟨negativeFlag v, rfl⟩
  setPc := by rintro s _ ⟨b, rfl⟩ a; exact ⟨b, rfl⟩
  setMem := by rintro s _ ⟨b, rfl⟩ m; exact ⟨b, rfl⟩
  addEvent := by rintro s _ ⟨b, rfl⟩ e; exact ⟨b, rfl⟩

/-- Settles O44: differing in N is unobservable. -/
theorem negativeFlagIsNeverRead : Obligations.NegativeFlagIsNeverRead := by
  intro s t b hst
  obtain ⟨_, ht', b', rfl⟩ := unobservable_differInN.exists_related_of_step ⟨b, rfl⟩ hst
  exact ⟨b', ht'⟩

/-! ### The step counter -/

/-- There is no step limit, and the states differ in the step counter at most. -/
def DifferInSteps (s t : State) : Prop :=
  s.params.stepLimit = none ∧ ∃ k : Nat, t = { s with steps := k }

/-- The limit check is the one reader of the counter, and without a limit it answers false. -/
theorem unobservable_differInSteps : Unobservable DifferInSteps where
  runState := by rintro s _ ⟨_, k, rfl⟩; rfl
  limitReached := by rintro s _ ⟨hnone, k, rfl⟩; simp [stepLimitReached, hnone]
  pc := by rintro s _ ⟨_, k, rfl⟩; rfl
  zeroFlag := by rintro s _ ⟨_, k, rfl⟩; rfl
  reg := by rintro s _ ⟨_, k, rfl⟩ q; cases q <;> rfl
  mem := by rintro s _ ⟨_, k, rfl⟩; rfl
  inBounds := by rintro s _ ⟨_, k, rfl⟩ a; rfl
  inIo := by rintro s _ ⟨_, k, rfl⟩ a; rfl
  input := by rintro s _ ⟨_, k, rfl⟩ a _; rfl
  countStep := by rintro s _ ⟨hnone, k, rfl⟩; exact ⟨hnone, k + 1, rfl⟩
  latchFetched := by rintro s _ ⟨hnone, k, rfl⟩ w; exact ⟨hnone, k, rfl⟩
  setRunState := by rintro s _ ⟨hnone, k, rfl⟩ r; exact ⟨hnone, k, rfl⟩
  writeReg := by
    rintro s _ ⟨hnone, k, rfl⟩ d v
    exact ⟨by rwa [writeReg_params], k, by cases d <;> rfl⟩
  setZN := by rintro s _ ⟨hnone, k, rfl⟩ v; exact ⟨hnone, k, rfl⟩
  setPc := by rintro s _ ⟨hnone, k, rfl⟩ a; exact ⟨hnone, k, rfl⟩
  setMem := by rintro s _ ⟨hnone, k, rfl⟩ m; exact ⟨hnone, k, rfl⟩
  addEvent := by rintro s _ ⟨hnone, k, rfl⟩ e; exact ⟨hnone, k, rfl⟩

/-- Settles O45: without a limit, differing in the step counter is unobservable. -/
theorem stepCounterOnlyServesTheLimit : Obligations.StepCounterOnlyServesTheLimit := by
  intro s t k hnone hst
  obtain ⟨_, ht', -, k', rfl⟩ :=
    unobservable_differInSteps.exists_related_of_step ⟨hnone, k, rfl⟩ hst
  exact ⟨k', ht'⟩

/-! ### The input source -/

/-- There is no I/O region, and the second state is the first with the input source `source`. -/
def DifferInSource (source : Nat) (s t : State) : Prop :=
  s.params.ioSize = 0 ∧ t = { s with params := { s.params with inputSource := source } }

theorem inIo_of_ioSize_zero {p : Params} (h : p.ioSize = 0) (a : Nat) : inIo p a = false := by
  simp only [inIo, h, Bool.and_eq_false_iff, decide_eq_false_iff_not]
  omega

/-- The input source is asked for addresses of the I/O region alone, and there is none. -/
theorem unobservable_differInSource (source : Nat) : Unobservable (DifferInSource source) where
  runState := by rintro s _ ⟨_, rfl⟩; rfl
  limitReached := by rintro s _ ⟨_, rfl⟩; rfl
  pc := by rintro s _ ⟨_, rfl⟩; rfl
  zeroFlag := by rintro s _ ⟨_, rfl⟩; rfl
  reg := by rintro s _ ⟨_, rfl⟩ q; cases q <;> rfl
  mem := by rintro s _ ⟨_, rfl⟩; rfl
  inBounds := by rintro s _ ⟨_, rfl⟩ a; rfl
  inIo := by rintro s _ ⟨_, rfl⟩ a; rfl
  input := by
    rintro s _ ⟨hsize, rfl⟩ a hio
    rw [inIo_of_ioSize_zero hsize] at hio
    cases hio
  countStep := by rintro s _ ⟨hsize, rfl⟩; exact ⟨hsize, rfl⟩
  latchFetched := by rintro s _ ⟨hsize, rfl⟩ w; exact ⟨hsize, rfl⟩
  setRunState := by rintro s _ ⟨hsize, rfl⟩ r; exact ⟨hsize, rfl⟩
  writeReg := by
    rintro s _ ⟨hsize, rfl⟩ d v
    exact ⟨by rwa [writeReg_params], by cases d <;> rfl⟩
  setZN := by rintro s _ ⟨hsize, rfl⟩ v; exact ⟨hsize, rfl⟩
  setPc := by rintro s _ ⟨hsize, rfl⟩ a; exact ⟨hsize, rfl⟩
  setMem := by rintro s _ ⟨hsize, rfl⟩ m; exact ⟨hsize, rfl⟩
  addEvent := by rintro s _ ⟨hsize, rfl⟩ e; exact ⟨hsize, rfl⟩

/-- Settles O46: without an I/O region, the change of the input source is unobservable. -/
theorem noIoRegionNoInput : Obligations.NoIoRegionNoInput := by
  intro s t source hsize hst
  obtain ⟨_, ht', -, rfl⟩ :=
    (unobservable_differInSource source).exists_related_of_step ⟨hsize, rfl⟩ hst
  exact ht'

end Sys2Proof.Machine
end

section
/-! PROOFS. The memory seen from outside: the port's out-of-bounds answers (R58), the word a load places at PC (R193, R195)
and what `read_mem` answers (R194). -/

namespace Sys2Proof.Machine

/-! ### The port -/

/-- A read is out of bounds exactly outside memory, and it never writes storage (R44). -/
theorem memRead_eq_none_iff (a : Word) (s : State) :
    memRead a s = none ↔ s.params.memSize ≤ a.toNat := by
  rw [← inBounds_false_iff]
  rcases region_cases s.params a.toNat with ⟨hb, hi⟩ | ⟨hb, hi⟩ | hb
  · simp [memRead_ram hb hi, hb]
  · simp [memRead_io hb hi, hb]
  · simp [memRead_oob hb, hb]

theorem mem_eq_of_memRead {a v : Word} {s t : State} (h : memRead a s = some (v, t)) :
    t.mem = s.mem := by
  rcases region_cases s.params a.toNat with ⟨hb, hi⟩ | ⟨hb, hi⟩ | hb
  · rw [memRead_ram hb hi] at h; cases h; rfl
  · rw [memRead_io hb hi] at h; cases h; rfl
  · rw [memRead_oob hb] at h; cases h

/-- A write is out of bounds exactly outside memory (R45). -/
theorem memWrite_eq_none_iff (a v : Word) (s : State) :
    memWrite a v s = none ↔ s.params.memSize ≤ a.toNat := by
  rw [← inBounds_false_iff]
  rcases region_cases s.params a.toNat with ⟨hb, hi⟩ | ⟨hb, hi⟩ | hb
  · simp [memWrite_ram v hb hi, hb]
  · simp [memWrite_io v hb hi, hb]
  · simp [memWrite_oob v hb, hb]

/-- A fetch answers its word or `oob`, and leaves the core (R46). -/
theorem portTransaction_fetch_cases (a : Word) (s : State) :
    (∃ w, fetchRead a s = some w ∧ portTransaction (.fetch a) s = (.rdata w, s))
      ∨ (fetchRead a s = none ∧ portTransaction (.fetch a) s = (.oob, s)) := by
  cases h : fetchRead a s with
  | some w => exact .inl ⟨w, rfl, by simp [portTransaction, h]⟩
  | none => exact .inr ⟨rfl, by simp [portTransaction, h]⟩

/-- A read answers its word in the state its access leaves, or `oob` in the state as it was. -/
theorem portTransaction_read_cases (a : Word) (s : State) :
    (∃ v t, memRead a s = some (v, t) ∧ portTransaction (.read a) s = (.rdata v, t))
      ∨ (memRead a s = none ∧ portTransaction (.read a) s = (.oob, s)) := by
  cases h : memRead a s with
  | some vt => exact .inl ⟨vt.1, vt.2, rfl, by simp [portTransaction, h]⟩
  | none => exact .inr ⟨rfl, by simp [portTransaction, h]⟩

/-- A write answers `ok` in the state its access leaves, or `oob` in the state as it was. -/
theorem portTransaction_write_cases (a v : Word) (s : State) :
    (∃ t, memWrite a v s = some t ∧ portTransaction (.write a v) s = (.ok, t))
      ∨ (memWrite a v s = none ∧ portTransaction (.write a v) s = (.oob, s)) := by
  cases h : memWrite a v s with
  | some t => exact .inl ⟨t, rfl, by simp [portTransaction, h]⟩
  | none => exact .inr ⟨rfl, by simp [portTransaction, h]⟩

theorem portTransaction_oob_unchanged (q : PortRequest) (s : State)
    (h : (portTransaction q s).1 = .oob) : (portTransaction q s).2 = s := by
  cases q with
  | fetch a =>
    rcases portTransaction_fetch_cases a s with ⟨w, _, e⟩ | ⟨_, e⟩ <;> rw [e]
  | read a =>
    rcases portTransaction_read_cases a s with ⟨v, t, _, e⟩ | ⟨_, e⟩ <;> rw [e] at h ⊢
    cases h
  | write a v =>
    rcases portTransaction_write_cases a v s with ⟨t, _, e⟩ | ⟨_, e⟩ <;> rw [e] at h ⊢
    cases h

theorem portTransaction_fetch_oob_iff (a : Word) (s : State) :
    (portTransaction (.fetch a) s).1 = .oob ↔
      s.params.memSize ≤ a.toNat ∨ inIo s.params a.toNat = true := by
  rw [← inRam_false_iff, ← fetchRead_eq_none_iff]
  rcases portTransaction_fetch_cases a s with ⟨w, hw, e⟩ | ⟨hn, e⟩
  · simp [hw, e]
  · simp [hn, e]

theorem portTransaction_read_oob_iff (a : Word) (s : State) :
    (portTransaction (.read a) s).1 = .oob ↔ s.params.memSize ≤ a.toNat := by
  rw [← memRead_eq_none_iff]
  rcases portTransaction_read_cases a s with ⟨v, t, hv, e⟩ | ⟨hn, e⟩
  · simp [hv, e]
  · simp [hn, e]

theorem portTransaction_write_oob_iff (a v : Word) (s : State) :
    (portTransaction (.write a v) s).1 = .oob ↔ s.params.memSize ≤ a.toNat := by
  rw [← memWrite_eq_none_iff a v]
  rcases portTransaction_write_cases a v s with ⟨t, ht, e⟩ | ⟨hn, e⟩
  · simp [ht, e]
  · simp [hn, e]

theorem portTransaction_fetch_unchanged (a : Word) (s : State) :
    (portTransaction (.fetch a) s).2 = s := by
  rcases portTransaction_fetch_cases a s with ⟨w, _, e⟩ | ⟨_, e⟩ <;> rw [e]

theorem portTransaction_read_mem (a : Word) (s : State) :
    (portTransaction (.read a) s).2.mem = s.mem := by
  rcases portTransaction_read_cases a s with ⟨v, t, hv, e⟩ | ⟨_, e⟩ <;> rw [e]
  exact mem_eq_of_memRead hv

/-- Settles O48: the answer and the state of each transaction, in its two cases. -/
theorem portOutOfBoundsChangesNothing : Obligations.PortOutOfBoundsChangesNothing := fun q s =>
  ⟨portTransaction_oob_unchanged q s, fun a =>
    ⟨portTransaction_fetch_unchanged a s, portTransaction_read_mem a s,
      portTransaction_fetch_oob_iff a s, portTransaction_read_oob_iff a s,
      fun v => portTransaction_write_oob_iff a v s⟩⟩

/-! ### A word placed at PC -/

/-- A load of one word in the RAM region is accepted (R193). -/
theorem hostLoad_one {a : Word} {s : State} (h : inRam s.params a.toNat = true) (w : Word) :
    hostLoad a [w] s = some (setMem (writeStorage a.toNat w s.mem) s) := by
  obtain ⟨hb, hi⟩ := (inRam_iff _ _).1 h
  refine (hostLoad_eq_some_iff a [w] s _).2 ⟨(inBounds_iff _ _).1 hb, ?_, rfl⟩
  simp [clearOfIo, hi]

theorem withFetchWord_of_inRam {s : State} (h : inRam s.params s.pc.toNat = true) (w : Word) :
    s.withFetchWord 16 w.toNat = setMem (writeStorage s.pc.toNat w s.mem) s := by
  have hw : BitVec.ofNat 16 (w.toNat % 2 ^ 16) = w := by
    rw [Nat.mod_eq_of_lt w.isLt, BitVec.ofNat_toNat, BitVec.setWidth_eq]
  rw [State.withFetchWord, hw, hostLoad_one h, Option.getD_some]

/-- Settles O51: the load changes storage alone, at PC, where the next fetch finds the word. -/
theorem loadedWordIsFetched : Obligations.LoadedWordIsFetched := by
  intro s w hr hl hram
  rw [withFetchWord_of_inRam hram]
  refine ⟨_, rfl, step_of_fetch hr hl ?_⟩
  exact (fetchRead_eq_some_iff _ _ _).2 ⟨hram, readStorage_writeStorage_same _ _ _⟩

/-! ### Inspection -/

/-- Settles O52: one answer for each region of the address map. -/
theorem inspectionOfMemory : Obligations.InspectionOfMemory := by
  refine fun a s => ⟨fun hout => ?_, fun hlt hi => ?_, fun hram => ?_⟩
  · simp [hostReadMem, (inBounds_false_iff _ _).2 hout]
  · simp [hostReadMem, (inBounds_iff _ _).2 hlt, hi]
  · obtain ⟨hb, hi⟩ := (inRam_iff _ _).1 hram
    simp [hostReadMem, hb, hi]

end Sys2Proof.Machine
end

section
/-! PROOFS. The assembler (R73, R74): the digits of every statement's word and the range of an immediate, then the text of a
statement, which splits into its mnemonic and its operands and reads back, operand by operand. -/

namespace Sys2Proof.Machine

/-! ### Immediates -/

theorem asmImm_eq_some {k : Int} (hlow : -8 ≤ k) (hhigh : k ≤ 7) :
    asmImm k = some (BitVec.ofInt 4 k) :=
  if_pos ⟨hlow, hhigh⟩

theorem asmImm_eq_none {k : Int} (h : k < -8 ∨ 7 < k) : asmImm k = none :=
  if_neg (by omega)

theorem range_of_asmImm_ne_none {k : Int} (h : asmImm k ≠ none) : -8 ≤ k ∧ k ≤ 7 := by
  by_contra hout
  exact h (asmImm_eq_none (by omega))

/-- `k[3:0]` of R73 is the immediate modulo 16. -/
theorem ofInt_four_toNat (k : Int) : ((BitVec.ofInt 4 k).toNat : Int) = k % 16 := by
  rw [BitVec.toNat_ofInt]
  omega

/-! ### Words -/

/-- The number of a canonical word: the opcode's digit, then the operands' digits. -/
theorem encode_toNat (i : Instr) :
    (encode i).toNat = 4096 * (fieldsOfInstr i).op.toNat + 256 * (fieldsOfInstr i).rd.toNat
      + 16 * (fieldsOfInstr i).rs.toNat + (fieldsOfInstr i).imm.toNat :=
  joinFields_toNat _

/-- The digits of the statements of two registers. -/
theorem assemble_regReg_toNat (d s : Reg) :
    ([(Asm.move d s, 4), (.add d s, 7), (.sub d s, 8), (.and d s, 9), (.or d s, 10),
        (.xor d s, 11), (.cmp d s, 12)].all fun p =>
      (assemble p.1).map BitVec.toNat
        == some (4096 * p.2 + 256 * (fieldOfReg d).toNat + 16 * (fieldOfReg s).toNat)) = true := by
  simp [assemble, encode_toNat, fieldsOfInstr]

/-- Settles O53: the fields of each encoding are its digits, and every immediate goes through one range check. -/
theorem assemblerWordsAndRefusals : Obligations.AssemblerWordsAndRefusals := by
  intro d s k
  refine ⟨rfl, rfl, fun _ => rfl, assemble_regReg_toNat d s, rfl, rfl, rfl, rfl, rfl,
    fun hout => ?_, fun hlow hhigh => ?_⟩
  · simp [assemble, asmOffset, asmImm_eq_none hout]
  · simp [assemble, asmOffset, asmImm_eq_some hlow hhigh, encode_toNat, fieldsOfInstr,
      ofInt_four_toNat, -BitVec.toNat_ofInt]

/-! ### Splitting a text -/

/-- A text of an operand: not empty, and without blanks and commas. -/
def plainOperand (p : List Char) : Bool := !p.isEmpty && p.all fun c => !isBlank c && c != ','

theorem splitMnemonic_eq_self {m : List Char} (hm : m.all (fun c => !isBlank c) = true) :
    splitMnemonic m = (m, []) := by
  induction m with
  | nil => rfl
  | cons c m ih =>
    obtain ⟨hc, hm⟩ : isBlank c = false ∧ m.all (fun c => !isBlank c) = true := by simpa using hm
    simp [splitMnemonic, hc, ih hm]

/-- A mnemonic ends at the first blank. -/
theorem splitMnemonic_append {m : List Char} (hm : m.all (fun c => !isBlank c) = true)
    (text : List Char) : splitMnemonic (m ++ ' ' :: text) = (m, skipBlanks text) := by
  induction m with
  | nil => rfl
  | cons c m ih =>
    obtain ⟨hc, hm⟩ : isBlank c = false ∧ m.all (fun c => !isBlank c) = true := by simpa using hm
    simp [splitMnemonic, hc, ih hm]

theorem splitCommas_plain {p : List Char} (hp : p.all (fun c => c != ',') = true) :
    splitCommas p = [p] := by
  induction p with
  | nil => rfl
  | cons c p ih =>
    obtain ⟨hc, hp⟩ : c ≠ ',' ∧ p.all (fun c => c != ',') = true := by simpa using hp
    simp [splitCommas, hc, ih hp]

theorem splitCommas_append {p : List Char} (hp : p.all (fun c => c != ',') = true)
    (text : List Char) : splitCommas (p ++ ',' :: text) = p :: splitCommas text := by
  induction p with
  | nil => rfl
  | cons c p ih =>
    obtain ⟨hc, hp⟩ : c ≠ ',' ∧ p.all (fun c => c != ',') = true := by simpa using hp
    simp [splitCommas, hc, ih hp]

/-- The operands as R73 spells them: a comma and a blank between any two. -/
def joinOperands : List (List Char) → List Char
  | [] => []
  | [p] => p
  | p :: q :: rest => p ++ ',' :: ' ' :: joinOperands (q :: rest)

theorem plainOperand_iff (p : List Char) :
    plainOperand p = true ↔ p ≠ [] ∧ p.all (fun c => !isBlank c) = true
      ∧ p.all (fun c => c != ',') = true := by
  simp [plainOperand, forall_and]

theorem skipBlanks_append {p : List Char} (hp : plainOperand p = true) (text : List Char) :
    skipBlanks (p ++ text) = p ++ text := by
  cases p with
  | nil => cases hp
  | cons c p =>
    obtain ⟨-, hblanks, -⟩ := (plainOperand_iff _).1 hp
    have hc : isBlank c = false := by simpa using List.all_eq_true.1 hblanks c (by simp)
    simp [skipBlanks, hc]

theorem skipBlanks_plain {p : List Char} (hp : plainOperand p = true) : skipBlanks p = p := by
  simpa using skipBlanks_append hp []

theorem splitCommas_ne_nil (text : List Char) : splitCommas text ≠ [] := by
  cases text with
  | nil => simp [splitCommas]
  | cons c cs =>
    unfold splitCommas
    split
    · simp
    · split <;> simp

/-- A blank before a part is not seen once the parts are read without their leading blanks. -/
theorem map_skipBlanks_splitCommas_blank (text : List Char) :
    (splitCommas (' ' :: text)).map skipBlanks = (splitCommas text).map skipBlanks := by
  cases h : splitCommas text with
  | nil => exact absurd h (splitCommas_ne_nil text)
  | cons part parts => simp [splitCommas, h, skipBlanks, isBlank]

theorem map_skipBlanks_splitCommas_joinOperands {p : List Char} {ps : List (List Char)}
    (h : ∀ q ∈ p :: ps, plainOperand q = true) :
    (splitCommas (joinOperands (p :: ps))).map skipBlanks = p :: ps := by
  induction ps generalizing p with
  | nil =>
    have hp := h p (by simp)
    obtain ⟨-, -, hcommas⟩ := (plainOperand_iff p).1 hp
    simp [joinOperands, splitCommas_plain hcommas, skipBlanks_plain hp]
  | cons q rest ih =>
    have hp := h p (by simp)
    obtain ⟨-, -, hcommas⟩ := (plainOperand_iff p).1 hp
    rw [joinOperands, splitCommas_append hcommas, List.map_cons, skipBlanks_plain hp,
      map_skipBlanks_splitCommas_blank, ih fun r hr => h r (List.mem_cons_of_mem p hr)]

theorem splitOperands_of_ne_nil {text : List Char} (h : text ≠ []) :
    splitOperands text = (splitCommas text).map skipBlanks := by
  cases text with
  | nil => exact absurd rfl h
  | cons c cs => rfl

theorem joinOperands_cons (p : List Char) (ps : List (List Char)) :
    ∃ text, joinOperands (p :: ps) = p ++ text := by
  cases ps with
  | nil => exact ⟨[], (List.append_nil p).symm⟩
  | cons q rest => exact ⟨_, rfl⟩

/-- Operands joined by commas and blanks, after the blanks that follow the mnemonic, split into the operands. -/
theorem splitOperands_joinOperands {ps : List (List Char)}
    (h : ∀ p ∈ ps, plainOperand p = true) :
    splitOperands (skipBlanks (joinOperands ps)) = ps := by
  cases ps with
  | nil => rfl
  | cons p ps =>
    have hp := h p (by simp)
    obtain ⟨hne, -, -⟩ := (plainOperand_iff p).1 hp
    obtain ⟨text, htext⟩ := joinOperands_cons p ps
    have hjoin : joinOperands (p :: ps) ≠ [] := by simp [htext, hne]
    rw [htext, skipBlanks_append hp, ← htext, splitOperands_of_ne_nil hjoin,
      map_skipBlanks_splitCommas_joinOperands h]

/-! ### The operands of a statement -/

/-- The text of an offset, one operand or none. -/
def offsetTexts : Option Int → List (List Char)
  | none => []
  | some k => [intChars k]

/-- The operands of a statement, each as its text. -/
def operandTexts : Asm → List (List Char)
  | .nop => []
  | .halt => []
  | .loadImm d k => [regChars d, intChars k]
  | .load d s k => regChars d :: regChars s :: offsetTexts k
  | .store d s k => regChars d :: regChars s :: offsetTexts k
  | .jump s k => regChars s :: offsetTexts k
  | .jumpIfZero s k => regChars s :: offsetTexts k
  | .jumpIfNotZero s k => regChars s :: offsetTexts k
  | .word v => [['0', 'x'] ++ wordChars v]
  | .move d s => [regChars d, regChars s]
  | .add d s => [regChars d, regChars s]
  | .sub d s => [regChars d, regChars s]
  | .and d s => [regChars d, regChars s]
  | .or d s => [regChars d, regChars s]
  | .xor d s => [regChars d, regChars s]
  | .cmp d s => [regChars d, regChars s]

theorem regChars_append_offsetChars (s : Reg) (k : Option Int) :
    regChars s ++ offsetChars k = joinOperands (regChars s :: offsetTexts k) := by
  cases k <;> simp [offsetChars, offsetTexts, joinOperands]

/-- The operands' text is the operands joined, after a blank if there is any. -/
theorem asmOperands_eq (a : Asm) :
    asmOperands a = if operandTexts a = [] then [] else ' ' :: joinOperands (operandTexts a) := by
  cases a <;>
    simp [asmOperands, operandTexts, joinOperands, regRegChars, regChars_append_offsetChars]

theorem asmMnemonic_noBlank (a : Asm) : (asmMnemonic a).all (fun c => !isBlank c) = true := by
  cases a <;> rfl

/-- The text of a statement splits into its mnemonic and its operands. -/
theorem splitMnemonic_asmChars (a : Asm) :
    splitMnemonic (asmChars a) = (asmMnemonic a, skipBlanks (joinOperands (operandTexts a))) := by
  rw [asmChars, asmOperands_eq]
  split
  · rename_i hnone
    rw [List.append_nil, splitMnemonic_eq_self (asmMnemonic_noBlank a), hnone]
    rfl
  · exact splitMnemonic_append (asmMnemonic_noBlank a) _

/-! ### Reading an operand -/

@[simp] theorem readRegName_regChars (r : Reg) : readRegName (regChars r) = some r := by
  cases r <;> rfl

theorem plainOperand_regChars (r : Reg) : plainOperand (regChars r) = true := by
  cases r <;> rfl

/-- The decimal text of an immediate in range is plain and reads as the immediate. -/
theorem readImm_intChars {k : Int} (hk : asmImm k ≠ none) :
    plainOperand (intChars k) = true ∧ readImm (intChars k) = some k := by
  obtain ⟨hlow, hhigh⟩ := range_of_asmImm_ne_none hk
  interval_cases k <;> decide

/-- A hexadecimal digit is plain and reads as the number it spells. -/
theorem digitValue_hexChar (v : Nibble) :
    (isBlank (hexChar v) = false ∧ hexChar v ≠ ',') ∧ digitValue 16 (hexChar v) = some v.toNat := by
  revert v; decide

theorem plainOperand_wordChars (v : Word) : plainOperand (['0', 'x'] ++ wordChars v) = true := by
  have hplain (f : Nibble) := (digitValue_hexChar f).1
  have hprefix : isBlank '0' = false ∧ isBlank 'x' = false := by decide
  simp [plainOperand, wordChars, hplain, hprefix]

/-- The four hexadecimal digits of a word read as its number. -/
theorem readNumber_wordChars (v : Word) :
    readNumber (['0', 'x'] ++ wordChars v) = some v.toNat := by
  have hdigit (f : Nibble) := (digitValue_hexChar f).2
  have hsum := joinFields_toNat (splitWord v)
  rw [joinFields_splitWord] at hsum
  simp only [readNumber, wordChars, List.cons_append, List.nil_append, readDigits, hdigit]
  rw [hsum]
  congr 1
  omega

/-! ### Reading the operands -/

theorem readRegReg_texts (make : Reg → Reg → Asm) (d s : Reg) :
    readRegReg make [regChars d, regChars s] = some (make d s) := by
  simp [readRegReg]

/-- The texts of the operands, an offset among them if its immediate is in range, read as the operands. -/
theorem readRegMem_texts (make : Reg → Reg → Option Int → Asm) (d s : Reg) {k : Option Int}
    (hk : asmOffset k ≠ none) :
    readRegMem make (regChars d :: regChars s :: offsetTexts k) = some (make d s k) := by
  cases k with
  | none => simp [offsetTexts, readRegMem, readRegReg]
  | some k =>
    simp [offsetTexts, readRegMem, (readImm_intChars (k := k) hk).2]

theorem readTarget_texts (make : Reg → Option Int → Asm) (s : Reg) {k : Option Int}
    (hk : asmOffset k ≠ none) :
    readTarget make (regChars s :: offsetTexts k) = some (make s k) := by
  cases k with
  | none => simp [offsetTexts, readTarget]
  | some k =>
    simp [offsetTexts, readTarget, (readImm_intChars (k := k) hk).2]

theorem readRegImm_texts (make : Reg → Int → Asm) (d : Reg) {k : Int} (hk : asmImm k ≠ none) :
    readRegImm make [regChars d, intChars k] = some (make d k) := by
  simp [readRegImm, (readImm_intChars (k := k) hk).2]

theorem readWord_texts (v : Word) :
    readWord [['0', 'x'] ++ wordChars v] = some (.word v) := by
  unfold readWord
  simp only [readNumber_wordChars, if_pos v.isLt, BitVec.ofNat_toNat, BitVec.setWidth_eq]

/-! ### Reading a statement -/

theorem plainOperand_offsetTexts {k : Option Int} (hk : asmOffset k ≠ none) :
    ∀ p ∈ offsetTexts k, plainOperand p = true := by
  cases k with
  | none => simp [offsetTexts]
  | some k =>
    simp [offsetTexts, (readImm_intChars (k := k) hk).1]

/-- The operands of an accepted statement are plain. -/
theorem plainOperand_operandTexts {a : Asm} (h : assemble a ≠ none) :
    ∀ p ∈ operandTexts a, plainOperand p = true := by
  cases a with
  | nop | halt => simp [operandTexts]
  | word v => simp only [operandTexts, List.forall_mem_singleton, plainOperand_wordChars]
  | loadImm d k =>
    simp [operandTexts, plainOperand_regChars,
      (readImm_intChars (mt Option.map_eq_none_iff.2 h)).1]
  | load d s k | store d s k | jump s k | jumpIfZero s k | jumpIfNotZero s k =>
    have hoffset := plainOperand_offsetTexts (mt Option.map_eq_none_iff.2 h)
    simpa [operandTexts, plainOperand_regChars] using hoffset
  | _ => simp [operandTexts, plainOperand_regChars]

theorem splitMnemonic_asmChars_fst (a : Asm) : (splitMnemonic (asmChars a)).1 = asmMnemonic a := by
  rw [splitMnemonic_asmChars]

theorem splitOperands_asmChars {a : Asm} (h : assemble a ≠ none) :
    splitOperands (splitMnemonic (asmChars a)).2 = operandTexts a := by
  rw [splitMnemonic_asmChars, splitOperands_joinOperands (plainOperand_operandTexts h)]

/-- The text of an accepted statement reads back as the statement. -/
theorem readStatement_asmChars {a : Asm} (h : assemble a ≠ none) :
    readStatement (asmChars a) = some a := by
  unfold readStatement
  rw [splitMnemonic_asmChars_fst, splitOperands_asmChars h]
  cases a with
  | nop | halt => rfl
  | word v => exact readWord_texts v
  | loadImm d k => exact readRegImm_texts _ d (mt Option.map_eq_none_iff.2 h)
  | load d s k | store d s k => exact readRegMem_texts _ d s (mt Option.map_eq_none_iff.2 h)
  | jump s k | jumpIfZero s k | jumpIfNotZero s k =>
    exact readTarget_texts _ s (mt Option.map_eq_none_iff.2 h)
  | move d s | add d s | sub d s | and d s | or d s | xor d s | cmp d s =>
    exact readRegReg_texts _ d s

/-- Settles O54: an accepted statement's text reads back, and no statement has one of the three mnemonics. -/
theorem assemblyTextReadsBack : Obligations.AssemblyTextReadsBack := by
  refine ⟨fun a h => ⟨readStatement_asmChars h, ?_⟩, fun text hmnemonic => ?_⟩
  · rw [assembleChars, readStatement_asmChars h, Option.bind_some]
  · unfold assembleChars readStatement
    rcases hmnemonic with hm | hm | hm <;> rw [hm] <;> rfl

end Sys2Proof.Machine
end
